-- ==== Sys2Proof/Word.lean ====
section
/-!
DEFINITION. The word types of the machine (R8, R10, R71): every value is an unsigned bit vector (R11).
-/

namespace Sys2Proof

/-- A byte: a memory cell, a general register, a timer, an immediate NN (R8). -/
abbrev Byte := BitVec 8

/-- A 16-bit word: an instruction, I, pc, a return address (R8, R10). -/
abbrev Word := BitVec 16

/-- A nibble: a register index X or Y, a count N (R71). -/
abbrev Nibble := BitVec 4

/-- A 12-bit address immediate NNN (R71). -/
abbrev Addr := BitVec 12

end Sys2Proof
end

