-- ==== Sys2Proof/Syntax.lean ====
section
/-!
DEFINITION. The instruction set: one constructor per row of spec/opcode_table.json (R75), with the operand fields of
its format (R72); the decoder's field view of a word (R71); and the names under which decoding rejects.
-/

namespace Sys2Proof

/-- The 35 instructions of R75, in the opcode table's order. `x`, `y` are register indices, `nn`, `nnn`, `n` immediates. -/
inductive Instr where
  /-- 00E0 (R170). -/
  | clear
  /-- 00EE (R100); the table's `return`. -/
  | ret
  /-- 0NNN other than 00E0 and 00EE (R95). -/
  | sys (nnn : Addr)
  /-- 1NNN (R101). -/
  | jump (nnn : Addr)
  /-- 2NNN (R102). -/
  | call (nnn : Addr)
  /-- 3XNN (R104). -/
  | skipEqImm (x : Nibble) (nn : Byte)
  /-- 4XNN (R105). -/
  | skipNeImm (x : Nibble) (nn : Byte)
  /-- 5XY0 (R106). -/
  | skipEqReg (x y : Nibble)
  /-- 6XNN (R120). -/
  | setImm (x : Nibble) (nn : Byte)
  /-- 7XNN (R121). -/
  | addImm (x : Nibble) (nn : Byte)
  /-- 8XY0 (R122). -/
  | aluCopy (x y : Nibble)
  /-- 8XY1 (R123). -/
  | aluOr (x y : Nibble)
  /-- 8XY2 (R124). -/
  | aluAnd (x y : Nibble)
  /-- 8XY3 (R125). -/
  | aluXor (x y : Nibble)
  /-- 8XY4 (R126). -/
  | aluAdd (x y : Nibble)
  /-- 8XY5 (R127). -/
  | aluSub (x y : Nibble)
  /-- 8XY6 (R128); Y is encoded but ignored. -/
  | aluShr (x y : Nibble)
  /-- 8XY7 (R129). -/
  | aluSubn (x y : Nibble)
  /-- 8XYE (R130); Y is encoded but ignored. -/
  | aluShl (x y : Nibble)
  /-- 9XY0 (R107). -/
  | skipNeReg (x y : Nibble)
  /-- ANNN (R150). -/
  | setIndex (nnn : Addr)
  /-- BNNN (R103). -/
  | jumpOffset (nnn : Addr)
  /-- CXNN (R131). -/
  | random (x : Nibble) (nn : Byte)
  /-- DXYN (R171). -/
  | draw (x y n : Nibble)
  /-- EX9E (R180). -/
  | skipKeyDown (x : Nibble)
  /-- EXA1 (R181). -/
  | skipKeyUp (x : Nibble)
  /-- FX07 (R183). -/
  | getDelay (x : Nibble)
  /-- FX0A (R182). -/
  | getKeyBlocking (x : Nibble)
  /-- FX15 (R184). -/
  | setDelay (x : Nibble)
  /-- FX18 (R185). -/
  | setSound (x : Nibble)
  /-- FX1E (R151). -/
  | addToIndex (x : Nibble)
  /-- FX29 (R152). -/
  | fontChar (x : Nibble)
  /-- FX33 (R153). -/
  | bcd (x : Nibble)
  /-- FX55 (R154). -/
  | storeRegs (x : Nibble)
  /-- FX65 (R155). -/
  | loadRegs (x : Nibble)
deriving DecidableEq, Repr

/-- The decoder's view of a word: "four 4-bit nibbles plus three derived operand views" (R71); X is n2, Y is n3, N is n4. -/
structure Fields where
  n1 : Nibble
  x : Nibble
  y : Nibble
  n : Nibble
  nn : Byte
  nnn : Addr
deriving DecidableEq, Repr

/-- Why bytes decode to no instruction: too few of them, or a word of one of the five spaces of R77, which is no row of
the opcode table and which a step executes as the no-op of R94. -/
inductive DecodeError where
  /-- Fewer than the two bytes of a word (R70). -/
  | truncated
  /-- 5XYn with n ≠ 0. -/
  | unrecognised5
  /-- 8XYn with n in 8, 9, A, B, C, D, F. -/
  | unrecognised8
  /-- 9XYn with n ≠ 0. -/
  | unrecognised9
  /-- EXnn with nn neither 9E nor A1. -/
  | unrecognisedE
  /-- FXnn with nn none of 07, 0A, 15, 18, 1E, 29, 33, 55, 65. -/
  | unrecognisedF
deriving DecidableEq, Repr

end Sys2Proof
end

