-- ==== Sys2Proof/Decode.lean ====
section
/-!
DEFINITION. Decoding (R70 to R78), total on any bytes and rejecting by name, and after it the encoder, written from the
same encoding table (R75, R76).
-/

namespace Sys2Proof

/-- The fields of a word (R71). -/
def fieldsOf (w : Word) : Fields :=
  { n1 := w.extractLsb' 12 4
    x := w.extractLsb' 8 4
    y := w.extractLsb' 4 4
    n := w.extractLsb' 0 4
    nn := w.extractLsb' 0 8
    nnn := w.extractLsb' 0 12 }

/-- Major opcode 0: the full word selects `clear` and `ret`, every other is `sys` (R76). -/
def decodeFamily0 (f : Fields) : Instr :=
  if f.nnn = 0x0E0 then .clear else if f.nnn = 0x0EE then .ret else .sys f.nnn

/-- Major opcode 8: the low nibble selects the operation (R75, R76). -/
def decodeFamily8 (f : Fields) : Except DecodeError Instr :=
  match f.n.toNat with
  | 0x0 => .ok (.aluCopy f.x f.y)
  | 0x1 => .ok (.aluOr f.x f.y)
  | 0x2 => .ok (.aluAnd f.x f.y)
  | 0x3 => .ok (.aluXor f.x f.y)
  | 0x4 => .ok (.aluAdd f.x f.y)
  | 0x5 => .ok (.aluSub f.x f.y)
  | 0x6 => .ok (.aluShr f.x f.y)
  | 0x7 => .ok (.aluSubn f.x f.y)
  | 0xE => .ok (.aluShl f.x f.y)
  | _ => .error .unrecognised8

/-- Major opcode E: the whole low byte selects the operation (R76, C3). -/
def decodeFamilyE (f : Fields) : Except DecodeError Instr :=
  if f.nn = 0x9E then .ok (.skipKeyDown f.x)
  else if f.nn = 0xA1 then .ok (.skipKeyUp f.x)
  else .error .unrecognisedE

/-- Major opcode F: the whole low byte selects the operation (R76, C3). -/
def decodeFamilyF (f : Fields) : Except DecodeError Instr :=
  if f.nn = 0x07 then .ok (.getDelay f.x)
  else if f.nn = 0x0A then .ok (.getKeyBlocking f.x)
  else if f.nn = 0x15 then .ok (.setDelay f.x)
  else if f.nn = 0x18 then .ok (.setSound f.x)
  else if f.nn = 0x1E then .ok (.addToIndex f.x)
  else if f.nn = 0x29 then .ok (.fontChar f.x)
  else if f.nn = 0x33 then .ok (.bcd f.x)
  else if f.nn = 0x55 then .ok (.storeRegs f.x)
  else if f.nn = 0x65 then .ok (.loadRegs f.x)
  else .error .unrecognisedF

/-- Decode and dispatch by exact pattern over the fields (R75, R76, R93). -/
def decodeFields (f : Fields) : Except DecodeError Instr :=
  match f.n1.toNat with
  | 0x0 => .ok (decodeFamily0 f)
  | 0x1 => .ok (.jump f.nnn)
  | 0x2 => .ok (.call f.nnn)
  | 0x3 => .ok (.skipEqImm f.x f.nn)
  | 0x4 => .ok (.skipNeImm f.x f.nn)
  | 0x5 => if f.n = 0 then .ok (.skipEqReg f.x f.y) else .error .unrecognised5
  | 0x6 => .ok (.setImm f.x f.nn)
  | 0x7 => .ok (.addImm f.x f.nn)
  | 0x8 => decodeFamily8 f
  | 0x9 => if f.n = 0 then .ok (.skipNeReg f.x f.y) else .error .unrecognised9
  | 0xA => .ok (.setIndex f.nnn)
  | 0xB => .ok (.jumpOffset f.nnn)
  | 0xC => .ok (.random f.x f.nn)
  | 0xD => .ok (.draw f.x f.y f.n)
  | 0xE => decodeFamilyE f
  | _ => decodeFamilyF f

/-- The instruction a 16-bit word stands for (R70, R76). -/
def decodeWord (w : Word) : Except DecodeError Instr := decodeFields (fieldsOf w)

/-- The word of two bytes as fetched, the first the high byte (R56). -/
def wordOfBytes (hi lo : Byte) : Word := hi ++ lo

/-- Decode the first instruction of a byte sequence and give the bytes after it (R70). -/
def decodeBytes : List Byte → Except DecodeError (Instr × List Byte)
  | hi :: lo :: rest =>
    match decodeWord (wordOfBytes hi lo) with
    | .ok i => .ok (i, rest)
    | .error e => .error e
  | _ => .error .truncated

/-- The two bytes of a word in memory order, the high byte at the lower address (R56). -/
def bytesOfWord (w : Word) : List Byte := [w.extractLsb' 8 8, w.extractLsb' 0 8]

/-- The word whose bits are the low `nbits` of `w`, and zero above (the opcode table's numbering of bits). -/
def tableWord (nbits w : Nat) : Word := BitVec.ofNat 16 (w % 2 ^ nbits)

/-- What the decoder reads from the bytes of an opcode-table word, laid out as the hardware stores them. -/
def decodeTableWord (nbits w : Nat) : Option Instr :=
  match decodeBytes (bytesOfWord (tableWord nbits w)) with
  | .ok (i, _) => some i
  | .error _ => none

/-- The word of an instruction: the fixed bits of its row of R75 around its operand fields. -/
def encode : Instr → Word
  | .clear => 0x00E0
  | .ret => 0x00EE
  | .sys nnn => 0x0#4 ++ nnn
  | .jump nnn => 0x1#4 ++ nnn
  | .call nnn => 0x2#4 ++ nnn
  | .skipEqImm x nn => 0x3#4 ++ x ++ nn
  | .skipNeImm x nn => 0x4#4 ++ x ++ nn
  | .skipEqReg x y => 0x5#4 ++ x ++ y ++ 0x0#4
  | .setImm x nn => 0x6#4 ++ x ++ nn
  | .addImm x nn => 0x7#4 ++ x ++ nn
  | .aluCopy x y => 0x8#4 ++ x ++ y ++ 0x0#4
  | .aluOr x y => 0x8#4 ++ x ++ y ++ 0x1#4
  | .aluAnd x y => 0x8#4 ++ x ++ y ++ 0x2#4
  | .aluXor x y => 0x8#4 ++ x ++ y ++ 0x3#4
  | .aluAdd x y => 0x8#4 ++ x ++ y ++ 0x4#4
  | .aluSub x y => 0x8#4 ++ x ++ y ++ 0x5#4
  | .aluShr x y => 0x8#4 ++ x ++ y ++ 0x6#4
  | .aluSubn x y => 0x8#4 ++ x ++ y ++ 0x7#4
  | .aluShl x y => 0x8#4 ++ x ++ y ++ 0xE#4
  | .skipNeReg x y => 0x9#4 ++ x ++ y ++ 0x0#4
  | .setIndex nnn => 0xA#4 ++ nnn
  | .jumpOffset nnn => 0xB#4 ++ nnn
  | .random x nn => 0xC#4 ++ x ++ nn
  | .draw x y n => 0xD#4 ++ x ++ y ++ n
  | .skipKeyDown x => 0xE#4 ++ x ++ 0x9E#8
  | .skipKeyUp x => 0xE#4 ++ x ++ 0xA1#8
  | .getDelay x => 0xF#4 ++ x ++ 0x07#8
  | .getKeyBlocking x => 0xF#4 ++ x ++ 0x0A#8
  | .setDelay x => 0xF#4 ++ x ++ 0x15#8
  | .setSound x => 0xF#4 ++ x ++ 0x18#8
  | .addToIndex x => 0xF#4 ++ x ++ 0x1E#8
  | .fontChar x => 0xF#4 ++ x ++ 0x29#8
  | .bcd x => 0xF#4 ++ x ++ 0x33#8
  | .storeRegs x => 0xF#4 ++ x ++ 0x55#8
  | .loadRegs x => 0xF#4 ++ x ++ 0x65#8

/-- The mask and match of an instruction's row, as R76's table and the opcode table give them. -/
def patternOf : Instr → Word × Word
  | .clear => (0xFFFF, 0x00E0)
  | .ret => (0xFFFF, 0x00EE)
  | .sys _ => (0xF000, 0x0000)
  | .jump _ => (0xF000, 0x1000)
  | .call _ => (0xF000, 0x2000)
  | .skipEqImm _ _ => (0xF000, 0x3000)
  | .skipNeImm _ _ => (0xF000, 0x4000)
  | .skipEqReg _ _ => (0xF00F, 0x5000)
  | .setImm _ _ => (0xF000, 0x6000)
  | .addImm _ _ => (0xF000, 0x7000)
  | .aluCopy _ _ => (0xF00F, 0x8000)
  | .aluOr _ _ => (0xF00F, 0x8001)
  | .aluAnd _ _ => (0xF00F, 0x8002)
  | .aluXor _ _ => (0xF00F, 0x8003)
  | .aluAdd _ _ => (0xF00F, 0x8004)
  | .aluSub _ _ => (0xF00F, 0x8005)
  | .aluShr _ _ => (0xF00F, 0x8006)
  | .aluSubn _ _ => (0xF00F, 0x8007)
  | .aluShl _ _ => (0xF00F, 0x800E)
  | .skipNeReg _ _ => (0xF00F, 0x9000)
  | .setIndex _ => (0xF000, 0xA000)
  | .jumpOffset _ => (0xF000, 0xB000)
  | .random _ _ => (0xF000, 0xC000)
  | .draw _ _ _ => (0xF000, 0xD000)
  | .skipKeyDown _ => (0xF0FF, 0xE09E)
  | .skipKeyUp _ => (0xF0FF, 0xE0A1)
  | .getDelay _ => (0xF0FF, 0xF007)
  | .getKeyBlocking _ => (0xF0FF, 0xF00A)
  | .setDelay _ => (0xF0FF, 0xF015)
  | .setSound _ => (0xF0FF, 0xF018)
  | .addToIndex _ => (0xF0FF, 0xF01E)
  | .fontChar _ => (0xF0FF, 0xF029)
  | .bcd _ => (0xF0FF, 0xF033)
  | .storeRegs _ => (0xF0FF, 0xF055)
  | .loadRegs _ => (0xF0FF, 0xF065)

end Sys2Proof
end

