-- ==== Sys2Proof/Config.lean ====
section
/-!
DEFINITION. What an implementation fixes (the open parameters of R9) and the one free value of the spec (the random
byte of R228).
-/

namespace Sys2Proof

/-- The open parameters of R9, "which the source does not settle and the model takes as arguments". A state carries
them (assumption log 1), so that a claim about every state is a claim about every value of them. -/
structure Params where
  /-- STACK_DEPTH: the most entries the call-return stack holds (R9, R27). -/
  stackDepth : Nat
  /-- FONT_BASE: the address of glyph 0 of the font (R9, R54). -/
  fontBase : Nat
  /-- FONT_DATA: glyph d at offsets 5d to 5d+4 (R9, R33). -/
  fontData : Vector Byte 80
deriving DecidableEq, Repr

/-- The constraints of R9. The bound 2^17 is DEDUCED (assumption log 2): FAULT_INFO is 17 bits (R37) and holds STACK_DEPTH
after a StackOverflow (R200). -/
def Params.wf (p : Params) : Bool :=
  decide (1 ≤ p.stackDepth) && decide (p.stackDepth < 2 ^ 17) && decide (p.fontBase + 80 ≤ 0x200)

/-- The RAND input (R228): the byte the k-th draw of a run takes. "No distribution, seed or sequence is specified, so a
model treats each draw as a free input in 0..255 under no law": it has no body, so nothing can be proved of a value of
it (assumption log 3). -/
opaque Config.randByte : Nat → Byte

end Sys2Proof
end

