-- ==== Sys2Proof/Machine/Params.lean ====
section
/-!
DEFINITION. The fixed parameters of R8 and the suggested values of the open parameters of R9.
-/

namespace Sys2Proof.Machine

/-- MEM_SIZE (R8, R50). -/
def memSize : Nat := 4096

/-- PROG_BASE: where a program loads, and the reset value of pc (R8, R242). -/
def progBase : Nat := 0x200

/-- ROM_MAX = MEM_SIZE - PROG_BASE (R8, R243). -/
def romMax : Nat := 3584

/-- The suggested FONT_DATA: the conventional CHIP-8 font of R33, "[from general knowledge, not in source]". -/
def suggestedFont : Vector Byte 80 :=
  #v[0xF0, 0x90, 0x90, 0x90, 0xF0, 0x20, 0x60, 0x20, 0x20, 0x70,
     0xF0, 0x10, 0xF0, 0x80, 0xF0, 0xF0, 0x10, 0xF0, 0x10, 0xF0,
     0x90, 0x90, 0xF0, 0x10, 0x10, 0xF0, 0x80, 0xF0, 0x10, 0xF0,
     0xF0, 0x80, 0xF0, 0x90, 0xF0, 0xF0, 0x10, 0x20, 0x40, 0x40,
     0xF0, 0x90, 0xF0, 0x90, 0xF0, 0xF0, 0x90, 0xF0, 0x10, 0xF0,
     0xF0, 0x90, 0xF0, 0x90, 0x90, 0xE0, 0x90, 0xE0, 0x90, 0xE0,
     0xF0, 0x80, 0x80, 0x80, 0xF0, 0xE0, 0x90, 0x90, 0x90, 0xE0,
     0xF0, 0x80, 0xF0, 0x80, 0xF0, 0xF0, 0x80, 0xF0, 0x80, 0x80]

/-- The suggested values of R9 (assumption log 1): what `State.reset` carries. -/
def suggestedParams : Params := { stackDepth := 16, fontBase := 0x050, fontData := suggestedFont }

end Sys2Proof.Machine
end

