-- ==== Sys2Proof/Machine/State.lean ====
section
/-!
DEFINITION. The state of one core (R20, R37), the host's events (R38), the faults (R200) and the refusals.
-/

namespace Sys2Proof.Machine

/-- The faults of R200. A fault is what the machine DOES, not a stop of the model: it is taken as a next state (R204,
`takeFault`), so no step answers `Host.Outcome.fault`. The name is what FAULT_CAUSE holds. -/
inductive Fault where
  /-- Code 1. Raised by every step's fetch of a byte at an address of 4096 or above (R91). Safe: taken as R204 says. -/
  | fetchBounds
  /-- Code 2. Raised by draw, bcd, store-regs and load-regs for a data byte at 4096 or above (R52). Safe: taken as R204 says. -/
  | memBounds
  /-- Code 3. Raised by return on an empty stack (R28, R100). Safe: taken as R204 says. -/
  | stackUnderflow
  /-- Code 4. Raised by call on a full stack (R27, R102). Safe: taken as R204 says. -/
  | stackOverflow
  /-- Code 5. Raised by skip-key-down and skip-key-up with VX above 15 (R180, R181). Safe: taken as R204 says. -/
  | keyIndex
deriving DecidableEq, Repr

/-- Why a step answers no state: the instruction has no meaning, or the host sent an event that the spec refuses
("the event is outside the interface", 93_implementation_defined.md item 16). -/
inductive Refusal where
  /-- Raised by an arm of `exec` whose instruction has no meaning yet. Safe. No arm is left so. -/
  | notModelled (mnemonic : String)
  /-- Raised by Load unless STOPPED and not LOADED (R243, R206). Safe: the host must not issue it. -/
  | loadNotAdmitted
  /-- Raised by KeyDown and KeyUp with a key outside 0..15 (R225). Safe: outside the interface. -/
  | keyOutside
  /-- Raised by Pixel outside the 64 by 32 grid (R32). Safe: outside the interface. -/
  | pixelOutside
deriving DecidableEq, Repr

/-- RUNSTATE (R37); its value 3 is never used, so it has no name here. -/
inductive RunState where
  | stopped
  | running
  | faulted
deriving DecidableEq, Repr

/-- The host's events (R38), as the environment orders them (R222). -/
inductive Event where
  /-- Execute one instruction (R90). -/
  | step
  /-- One 60 Hz timer decrement (R220). -/
  | tick
  /-- Reset every state component (R240). -/
  | reset
  /-- Load a ROM image; its `len` is the length of `bytes` (R243). -/
  | load (bytes : List Byte)
  /-- Begin running (R244). -/
  | start
  /-- Cease running (R245). -/
  | stop
  /-- Key k goes down (R225). -/
  | keyDown (k : Nat)
  /-- Key k goes up (R225). -/
  | keyUp (k : Nat)
  /-- The host asks for a pixel (R32). -/
  | pixel (x y : Nat)
deriving DecidableEq, Repr

/-- What the core signals to the host beside its levels (R38). -/
inductive Output where
  /-- A rejected ROM (R243). -/
  | loadError
  /-- The answer to a pixel query (R32). -/
  | pixel (x y : Nat) (on : Bool)
deriving DecidableEq, Repr

/-- Memory (R50) as the cells that differ from the reset contents (R241): addresses strictly rising, no cell equal to what
an unlisted address reads as. -/
abbrev Memory := List Host.Cell

/-- The display: `d[x][y]` is `Disp[x][y]`, column x of 64, row y of 32 (R31). -/
abbrev Display := Vector (Vector Bool 32) 64

/-- The 16 key flags, one per hex key (R34). -/
abbrev Keys := Vector Bool 16

/-- The state of one core: the components of R20 and R37, and four fields of the model's own (`params`, `draws`, `inputs`,
`outputs`; assumption log 1, 3, 4, 5). -/
structure State where
  /-- The open parameters of R9; fixed, no step changes them. -/
  params : Params
  /-- mem[0..4095] (R50). -/
  mem : Memory
  /-- V[0..15] (R21). -/
  v : Vector Byte 16
  /-- I (R25). -/
  index : Word
  /-- pc (R26). -/
  pc : Word
  /-- The call-return stack, oldest entry first (R27). -/
  stack : List Word
  /-- DT (R29). -/
  dt : Byte
  /-- ST (R29). -/
  st : Byte
  /-- Disp (R31). -/
  disp : Display
  /-- HostKey (R34). -/
  hostKey : Keys
  /-- KeyPrev (R36). -/
  keyPrev : Keys
  /-- RUNSTATE (R37). -/
  runState : RunState
  /-- FAULT_CAUSE (R37); `none` is code 0. -/
  faultCause : Option Fault
  /-- FAULT_PC (R37). -/
  faultPc : Word
  /-- FAULT_OPCODE (R37). -/
  faultOpcode : Word
  /-- FAULT_OPCODE_VALID (R37). -/
  faultOpcodeValid : Bool
  /-- FAULT_INFO (R37). -/
  faultInfo : BitVec 17
  /-- LOADED (R37). -/
  loaded : Bool
  /-- The model's own: how many random bytes have been drawn (R228). -/
  draws : Nat
  /-- The model's own: the host events still to come, next first (R222). -/
  inputs : List Event
  /-- The model's own: what the core has signalled, oldest first (R38). -/
  outputs : List Output
deriving DecidableEq, Repr

/-- The state that Reset leaves for given parameters (R20, R240, R241). -/
def State.resetWith (p : Params) : State :=
  { params := p
    mem := []
    v := Vector.replicate 16 0
    index := 0
    pc := 0x200
    stack := []
    dt := 0
    st := 0
    disp := Vector.replicate 64 (Vector.replicate 32 false)
    hostKey := Vector.replicate 16 false
    keyPrev := Vector.replicate 16 false
    runState := .stopped
    faultCause := none
    faultPc := 0
    faultOpcode := 0
    faultOpcodeValid := false
    faultInfo := 0
    loaded := false
    draws := 0
    inputs := []
    outputs := [] }

/-- The machine right after reset, with the suggested parameters (R9, R20, R240). -/
def State.reset : State := State.resetWith suggestedParams

end Sys2Proof.Machine
end

