-- ==== Sys2Proof/Machine/Ops.lean ====
section
/-!
DEFINITION. The named operations over memory, registers, stack, display and keys; fetch; the completion of a step;
and fault entry (R204) with the only way out of it, the reset of the machine (R206, R240).
-/

namespace Sys2Proof.Machine

/-! Memory (R50, R241). -/

/-- The reset contents of an address, and so what an unlisted address reads as: the font at FONT_BASE, zero elsewhere (R241). -/
def resetByte (p : Params) (a : Nat) : Byte :=
  if h : p.fontBase ≤ a ∧ a < p.fontBase + 80 then p.fontData[a - p.fontBase] else 0

/-- The listed cell at an address. -/
def lookupCell (a : Nat) : Memory → Option Byte
  | [] => none
  | (b, x) :: rest => if a = b then some x else lookupCell a rest

/-- Put byte `x` at address `a`, keeping the canonical form: `d` is what the unlisted address reads as. -/
def writeCell (d : Byte) (a : Nat) (x : Byte) : Memory → Memory
  | [] => if x = d then [] else [(a, x)]
  | (b, y) :: rest =>
    if a < b then (if x = d then (b, y) :: rest else (a, x) :: (b, y) :: rest)
    else if a = b then (if x = d then rest else (a, x) :: rest)
    else (b, y) :: writeCell d a x rest

/-- The canonical form of memory: addresses strictly rising and inside 0..4095, no cell equal to its reset contents. -/
abbrev Memory.wf (p : Params) (m : Memory) : Prop :=
  m.Pairwise (fun c e => c.1 < e.1) ∧ ∀ c ∈ m, c.1 < memSize ∧ c.2 ≠ resetByte p c.1

/-- The byte at an address (R50); the bounds check of R52 stands at the accesses (`accessFault`, `fetchWord`). -/
def readByte (s : State) (a : Nat) : Byte := (lookupCell a s.mem).getD (resetByte s.params a)

/-- Write the byte at an address (R50). -/
def writeByte (a : Nat) (x : Byte) (s : State) : State :=
  { s with mem := writeCell (resetByte s.params a) a x s.mem }

/-- Write bytes at rising addresses from `a` (R53, R58, R243). -/
def writeBytes (a : Nat) : List Byte → State → State
  | [], s => s
  | x :: rest, s => writeBytes (a + 1) rest (writeByte a x s)

/-! Registers (R21, R25, R26, R29). -/

/-- V[x] (R74: every 4-bit value names a register). -/
def reg (s : State) (x : Nibble) : Byte := s.v[x.toNat]

/-- V[x] <- b. -/
def setReg (x : Nibble) (b : Byte) (s : State) : State := { s with v := s.v.set x.toNat b }

/-- The index of VF (R22). -/
def vf : Nibble := 15

/-- I <- w. -/
def setIndexReg (w : Word) (s : State) : State := { s with index := w }

/-- pc <- w (R26: any 16-bit value, no check). -/
def setPc (w : Word) (s : State) : State := { s with pc := w }

/-- DT <- b. -/
def setDelayTimer (b : Byte) (s : State) : State := { s with dt := b }

/-- ST <- b. -/
def setSoundTimer (b : Byte) (s : State) : State := { s with st := b }

/-- stack <- l. -/
def setStack (l : List Word) (s : State) : State := { s with stack := l }

/-- Disp <- d. -/
def setDisp (d : Display) (s : State) : State := { s with disp := d }

/-- RUNSTATE <- r. -/
def setRunState (r : RunState) (s : State) : State := { s with runState := r }

/-- SOUND_ACTIVE: 1 exactly when ST ≠ 0 (R43). -/
def soundActive (s : State) : Bool := s.st != 0

/-! The codes the host reads (R37, R200). -/

/-- RUNSTATE as its two bits. -/
def RunState.code : RunState → BitVec 2
  | .stopped => 0
  | .running => 1
  | .faulted => 2

/-- The code of a fault. -/
def Fault.code : Fault → BitVec 3
  | .fetchBounds => 1
  | .memBounds => 2
  | .stackUnderflow => 3
  | .stackOverflow => 4
  | .keyIndex => 5

/-- FAULT_CAUSE as its three bits: 0 for none. -/
def faultCauseCode (s : State) : BitVec 3 :=
  match s.faultCause with
  | none => 0
  | some f => f.code

/-! The display (R31, R32). -/

/-- The display with every pixel off. -/
def blankDisplay : Display := Vector.replicate 64 (Vector.replicate 32 false)

/-- Disp[x][y], off outside the grid. -/
def pixelAt (d : Display) (x y : Nat) : Bool :=
  if h : x < 64 ∧ y < 32 then d[x][y] else false

/-- Disp[x][y] <- Disp[x][y] XOR 1; nothing outside the grid. -/
def flipPixel (d : Display) (x y : Nat) : Display :=
  if h : x < 64 ∧ y < 32 then d.set x (d[x].set y (!d[x][y])) else d

/-! The keys (R34, R35). -/

/-- Key k's flag; up outside 0..15. -/
def keyAt (ks : Keys) (k : Nat) : Bool := if h : k < 16 then ks[k] else false

/-- HostKey[k] <- b for k in 0..15 (R225). -/
def setHostKey (k : Nat) (b : Bool) (s : State) : State :=
  { s with hostKey := if h : k < 16 then s.hostKey.set k b else s.hostKey }

/-! The random source (R228). -/

/-- The byte the next draw takes. -/
def nextRandom (s : State) : Byte := Config.randByte s.draws

/-- One draw has been taken. -/
def countDraw (s : State) : State := { s with draws := s.draws + 1 }

/-! Fetch, advance and completion (R91, R93). -/

/-- Read the word at pc, high byte first, or give the first address out of range (R91). -/
def fetchWord (s : State) : Except Nat Word :=
  if memSize ≤ s.pc.toNat then .error s.pc.toNat
  else if memSize ≤ s.pc.toNat + 1 then .error (s.pc.toNat + 1)
  else .ok (wordOfBytes (readByte s s.pc.toNat) (readByte s (s.pc.toNat + 1)))

/-- pc <- (pc_old + 2) mod 2^16 (R91). -/
def advance (s : State) : State := setPc (s.pc + 2) s

/-- KeyPrev <- Key, the last action of a step that does not fault (R36, R93). Key is HostKey: a step is atomic, so the sample
taken at its start (R35) is what HostKey still holds at its end. -/
def retire (s : State) : State := { s with keyPrev := s.hostKey }

/-- A step that completes with state `t` (R93). -/
def complete (t : State) : Host.Outcome State Fault Refusal := .next (retire t)

/-! Fault entry and the way out (R204, R206). -/

/-- Fault entry (R204): `s` is the state before the step, `op` the fetched word if the fetch succeeded. Every architectural
component stays as it was, so pc stays pc_old; only RUNSTATE and the fault registers change. -/
def takeFault (f : Fault) (info : Nat) (op : Option Word) (s : State) : State :=
  { s with
    runState := .faulted
    faultCause := some f
    faultPc := s.pc
    faultOpcode := op.getD 0
    faultOpcodeValid := op.isSome
    faultInfo := BitVec.ofNat 17 info }

/-- `raise F(info)` in the execute phase of instruction `i` (R12, R204): a next state; FAULT_OPCODE is the word of `i`. -/
def raise (f : Fault) (info : Nat) (i : Instr) (s : State) : Host.Outcome State Fault Refusal :=
  .next (takeFault f info (some (encode i)) s)

/-- Every state component at its reset value (R240, R241), which is the only way out of a fault (R206). The parameters are
fixed, and the model's own history (draws, inputs, outputs) goes on (assumption log 8). -/
def resetMachine (s : State) : State :=
  { State.resetWith s.params with draws := s.draws, inputs := s.inputs, outputs := s.outputs }

/-! The host's hand on the machine, for `State.withFetchWord` (assumption log 7). -/

/-- Whether a two-byte fetch at pc is in range (R91). -/
def fetchable (s : State) : Bool := decide (s.pc.toNat + 1 < memSize)

/-- A running, loaded machine whose next event is a Step and which fetches word `w` in it. -/
def placeWord (w : Word) (s : State) : State :=
  let pc := if fetchable s then s.pc else 0x200
  let inputs := match s.inputs with
    | [] => []
    | e :: rest => .step :: e :: rest
  writeBytes pc.toNat (bytesOfWord w) { s with pc := pc, runState := .running, loaded := true, inputs := inputs }

end Sys2Proof.Machine
end

