-- ==== Sys2Proof/Machine/Flags.lean ====
section
/-!
DEFINITION. The arithmetic of R132, computed over the naturals and narrowed (R11), the flags it leaves in VF (R22), and the
two orders in which a result and a flag are written (R97).
-/

namespace Sys2Proof.Machine

/-- A flag as VF holds it. -/
def flagByte (b : Bool) : Byte := if b then 1 else 0

/-- (a + b) mod 256 (R121, R126). -/
def sumByte (a b : Byte) : Byte := BitVec.ofNat 8 ((a.toNat + b.toNat) % 256)

/-- The carry of 8XY4: the unbounded sum exceeds 255 (R126). -/
def carry (a b : Byte) : Bool := decide (255 < a.toNat + b.toNat)

/-- (a - b) mod 256 (R127, R129). -/
def diffByte (a b : Byte) : Byte := BitVec.ofNat 8 ((256 + a.toNat - b.toNat) % 256)

/-- The not-borrow of a - b: 1 exactly when a ≥ b (R127, R129). -/
def notBorrow (a b : Byte) : Bool := decide (b.toNat ≤ a.toNat)

/-- a >> 1 (R128). -/
def shrByte (a : Byte) : Byte := BitVec.ofNat 8 (a.toNat / 2)

/-- The bit that a >> 1 shifts out, a[0] (R128). -/
def lowBit (a : Byte) : Bool := a.getLsbD 0

/-- (a << 1) mod 256 (R130). -/
def shlByte (a : Byte) : Byte := BitVec.ofNat 8 (2 * a.toNat % 256)

/-- The bit that a << 1 shifts out, a[7] (R130). -/
def highBit (a : Byte) : Bool := a.getLsbD 7

/-- (I + VX) mod 2^16 (R151). -/
def indexSum (i : Word) (b : Byte) : Word := BitVec.ofNat 16 ((i.toNat + b.toNat) % 2 ^ 16)

/-- The new I exceeds 0x0FFF (R151). -/
def indexOverflow (t : Word) : Bool := decide (0x0FFF < t.toNat)

/-- The result, then the flag (R97: 8XY4): with X = F the flag remains. -/
def writeResultThenFlag (x : Nibble) (r : Byte) (f : Bool) (s : State) : State :=
  setReg vf (flagByte f) (setReg x r s)

/-- The flag, then the result (R97: 8XY5, 8XY6, 8XY7, 8XYE): with X = F the result remains. -/
def writeFlagThenResult (x : Nibble) (r : Byte) (f : Bool) (s : State) : State :=
  setReg x r (setReg vf (flagByte f) s)

end Sys2Proof.Machine
end

