-- ==== Sys2Proof/Machine/Operands.lean ====
section
/-!
DEFINITION. The operand forms: effective addresses and their bounds check (R52, R53), register ranges (R154, R155),
digits (R153), glyph addresses (R152), sprites (R171, R172) and key edges (R182).
-/

namespace Sys2Proof.Machine

/-- The effective address of byte k of an access: I + k over the naturals, without wrap (R53). -/
def effAddr (s : State) (k : Nat) : Nat := s.index.toNat + k

/-- The bounds check of an access of `n` bytes at I (R52): the first address out of range in the order of R58, if any. -/
def accessFault (s : State) (n : Nat) : Option Nat :=
  if 0 < n ∧ memSize ≤ effAddr s (n - 1) then some (max s.index.toNat memSize) else none

/-- The bytes at I .. I+n-1 in rising order (R58). -/
def bytesAtIndex (s : State) (n : Nat) : List Byte := (List.range n).map fun k => readByte s (effAddr s k)

/-- How many registers V0..VX are (R154, R155). -/
def rangeCount (x : Nibble) : Nat := x.toNat + 1

/-- The values of V0..VX, sampled (R92, R154). -/
def regRange (s : State) (x : Nibble) : List Byte := s.v.toList.take (rangeCount x)

/-- V[k], V[k+1], … <- bytes, in rising order (R155). -/
def setRegsFrom (k : Nat) : List Byte → State → State
  | [], t => t
  | b :: rest, t => setRegsFrom (k + 1) rest (setReg (BitVec.ofNat 4 k) b t)

/-- The hundreds, tens and units of a byte (R153). -/
def bcdDigits (b : Byte) : List Byte :=
  [BitVec.ofNat 8 (b.toNat / 100), BitVec.ofNat 8 (b.toNat / 10 % 10), BitVec.ofNat 8 (b.toNat % 10)]

/-- The address of the glyph that the low nibble of a byte selects (R152). -/
def glyphAddr (p : Params) (b : Byte) : Word := BitVec.ofNat 16 (p.fontBase + 5 * (b &&& 0x0F).toNat)

/-- The bits of one sprite row that are on and visible, as pixels from the left: bit 7 is column `x0`, and a column of 64 or
above is clipped (R171, R172). -/
def rowPixels (x0 y : Nat) (b : Byte) : List (Nat × Nat) :=
  (List.range 8).filterMap fun c =>
    if x0 + c < 64 ∧ b.getLsbD (7 - c) = true then some (x0 + c, y) else none

/-- The pixels that a sprite flips, rows from the top, a row of 32 or above clipped (R171). -/
def spritePixels (x0 y : Nat) : List Byte → List (Nat × Nat)
  | [] => []
  | b :: rest => (if y < 32 then rowPixels x0 y b else []) ++ spritePixels x0 (y + 1) rest

/-- Draw pixels one after the other: each flips, and an on pixel that turns off is a collision (R171). -/
def drawPixels : List (Nat × Nat) → Display × Bool → Display × Bool
  | [], r => r
  | (x, y) :: rest, (d, hit) => drawPixels rest (flipPixel d x y, hit || pixelAt d x y)

/-- The fresh press edges, lowest key first: down in this step's sample, up in the snapshot of the step before (R182). -/
def freshKeys (s : State) : List Nat :=
  (List.range 16).filter fun k => keyAt s.hostKey k && !keyAt s.keyPrev k

/-- zext_16 of an address immediate (R73). -/
def addrWord (nnn : Addr) : Word := nnn.setWidth 16

end Sys2Proof.Machine
end

