-- ==== Sys2Proof/Machine/Alu.lean ====
section
/-!
DEFINITION. The meanings of 42_register_alu.md. `s` is the state before the step: every operand is read from it (R92).
-/

namespace Sys2Proof.Machine

/-- The step whose execute phase writes one register and no flag (R120 to R125). -/
def completeReg (x : Nibble) (b : Byte) (s : State) : Host.Outcome State Fault Refusal :=
  complete (setReg x b (advance s))

/-- LD VX, NN (R120). -/
def execSetImm (x : Nibble) (nn : Byte) (s : State) : Host.Outcome State Fault Refusal :=
  completeReg x nn s

/-- ADD VX, NN: no flag side effect (R121). -/
def execAddImm (x : Nibble) (nn : Byte) (s : State) : Host.Outcome State Fault Refusal :=
  completeReg x (sumByte (reg s x) nn) s

/-- LD VX, VY (R122). -/
def execAluCopy (x y : Nibble) (s : State) : Host.Outcome State Fault Refusal :=
  completeReg x (reg s y) s

/-- OR VX, VY (R123). -/
def execAluOr (x y : Nibble) (s : State) : Host.Outcome State Fault Refusal :=
  completeReg x (reg s x ||| reg s y) s

/-- AND VX, VY (R124). -/
def execAluAnd (x y : Nibble) (s : State) : Host.Outcome State Fault Refusal :=
  completeReg x (reg s x &&& reg s y) s

/-- XOR VX, VY (R125). -/
def execAluXor (x y : Nibble) (s : State) : Host.Outcome State Fault Refusal :=
  completeReg x (reg s x ^^^ reg s y) s

/-- ADD VX, VY: the carry is written after the sum (R126). -/
def execAluAdd (x y : Nibble) (s : State) : Host.Outcome State Fault Refusal :=
  complete (writeResultThenFlag x (sumByte (reg s x) (reg s y)) (carry (reg s x) (reg s y)) (advance s))

/-- SUB VX, VY: the not-borrow is written before the difference (R127). -/
def execAluSub (x y : Nibble) (s : State) : Host.Outcome State Fault Refusal :=
  complete (writeFlagThenResult x (diffByte (reg s x) (reg s y)) (notBorrow (reg s x) (reg s y)) (advance s))

/-- SHR VX: in place, VY ignored (R128). -/
def execAluShr (x _y : Nibble) (s : State) : Host.Outcome State Fault Refusal :=
  complete (writeFlagThenResult x (shrByte (reg s x)) (lowBit (reg s x)) (advance s))

/-- SUBN VX, VY: VY minus VX (R129). -/
def execAluSubn (x y : Nibble) (s : State) : Host.Outcome State Fault Refusal :=
  complete (writeFlagThenResult x (diffByte (reg s y) (reg s x)) (notBorrow (reg s y) (reg s x)) (advance s))

/-- SHL VX: in place, VY ignored (R130). -/
def execAluShl (x _y : Nibble) (s : State) : Host.Outcome State Fault Refusal :=
  complete (writeFlagThenResult x (shlByte (reg s x)) (highBit (reg s x)) (advance s))

/-- CXNN when the draw gives `r` (R131). -/
def randomWith (r : Byte) (x : Nibble) (nn : Byte) (s : State) : Host.Outcome State Fault Refusal :=
  completeReg x (r &&& nn) (countDraw s)

/-- RND VX, NN: the draw is a free value (R131, R228). -/
def execRandom (x : Nibble) (nn : Byte) (s : State) : Host.Outcome State Fault Refusal :=
  randomWith (nextRandom s) x nn s

end Sys2Proof.Machine
end

