-- ==== Sys2Proof/Machine/Control.lean ====
section
/-!
DEFINITION. The no-op (R94, R95) and the meanings of 41_control_flow.md. `s` is the state before the step (R92); pc
arithmetic is modulo 2^16 (R26).
-/

namespace Sys2Proof.Machine

/-- The no-op: pc advances and nothing else happens (R94). -/
def noOp (s : State) : Host.Outcome State Fault Refusal := complete (advance s)

/-- A jump to `w` (R108: an absolute assignment after the step's own advance). -/
def jumpTo (w : Word) (s : State) : Host.Outcome State Fault Refusal := complete (setPc w (advance s))

/-- A skip: pc <- pc + 2 once more when the test holds (R104 to R107, R180, R181). -/
def skipIf (c : Bool) (s : State) : Host.Outcome State Fault Refusal :=
  complete (if c then advance (advance s) else advance s)

/-- SYS NNN (R95). -/
def execSys (_nnn : Addr) (s : State) : Host.Outcome State Fault Refusal := noOp s

/-- RET: pc <- Pop() (R28, R100). -/
def execRet (s : State) : Host.Outcome State Fault Refusal :=
  match s.stack.getLast? with
  | none => raise .stackUnderflow 0 .ret s
  | some w => complete (setPc w (setStack s.stack.dropLast (advance s)))

/-- JP NNN (R101). -/
def execJump (nnn : Addr) (s : State) : Host.Outcome State Fault Refusal := jumpTo (addrWord nnn) s

/-- CALL NNN: Push(pc_old + 2), then jump (R27, R102). -/
def execCall (nnn : Addr) (s : State) : Host.Outcome State Fault Refusal :=
  if s.stack.length = s.params.stackDepth then raise .stackOverflow s.params.stackDepth (.call nnn) s
  else complete (setPc (addrWord nnn) (setStack (s.stack ++ [(advance s).pc]) (advance s)))

/-- JP V0, NNN: the register is always V0 (R103). -/
def execJumpOffset (nnn : Addr) (s : State) : Host.Outcome State Fault Refusal :=
  jumpTo (BitVec.ofNat 16 (nnn.toNat + (reg s 0).toNat)) s

/-- SE VX, NN (R104). -/
def execSkipEqImm (x : Nibble) (nn : Byte) (s : State) : Host.Outcome State Fault Refusal :=
  skipIf (reg s x == nn) s

/-- SNE VX, NN (R105). -/
def execSkipNeImm (x : Nibble) (nn : Byte) (s : State) : Host.Outcome State Fault Refusal :=
  skipIf (reg s x != nn) s

/-- SE VX, VY (R106). -/
def execSkipEqReg (x y : Nibble) (s : State) : Host.Outcome State Fault Refusal :=
  skipIf (reg s x == reg s y) s

/-- SNE VX, VY (R107). -/
def execSkipNeReg (x y : Nibble) (s : State) : Host.Outcome State Fault Refusal :=
  skipIf (reg s x != reg s y) s

end Sys2Proof.Machine
end

