-- ==== Sys2Proof/Machine/Display.lean ====
section
/-!
DEFINITION. The meanings of 44_display.md. `s` is the state before the step: every operand is read from it (R92).
-/

namespace Sys2Proof.Machine

/-- CLS (R170). -/
def execClear (s : State) : Host.Outcome State Fault Refusal := complete (setDisp blankDisplay (advance s))

/-- The pixels that DXYN flips in state `s`: the start wraps, and pixels past an edge are clipped (R171). -/
def drawTargets (x y n : Nibble) (s : State) : List (Nat × Nat) :=
  spritePixels ((reg s x).toNat % 64) ((reg s y).toNat % 32) (bytesAtIndex s n.toNat)

/-- DRW VX, VY, N: every row is bounds-checked first, VF ends as the collision (R171). -/
def execDraw (x y n : Nibble) (s : State) : Host.Outcome State Fault Refusal :=
  match accessFault s n.toNat with
  | some a => raise .memBounds a (.draw x y n) s
  | none =>
    let r := drawPixels (drawTargets x y n s) (s.disp, false)
    complete (setReg vf (flagByte r.2) (setDisp r.1 (advance s)))

end Sys2Proof.Machine
end

