-- ==== Sys2Proof/Machine/Input.lean ====
section
/-!
DEFINITION. The meanings of 45_input_timers.md. `s` is the state before the step (R92); the key sample of the step is the
`hostKey` it holds (R35).
-/

namespace Sys2Proof.Machine

/-- SKP VX (R180). -/
def execSkipKeyDown (x : Nibble) (s : State) : Host.Outcome State Fault Refusal :=
  if 15 < (reg s x).toNat then raise .keyIndex (reg s x).toNat (.skipKeyDown x) s
  else skipIf (keyAt s.hostKey (reg s x).toNat) s

/-- SKNP VX (R181). -/
def execSkipKeyUp (x : Nibble) (s : State) : Host.Outcome State Fault Refusal :=
  if 15 < (reg s x).toNat then raise .keyIndex (reg s x).toNat (.skipKeyUp x) s
  else skipIf (!keyAt s.hostKey (reg s x).toNat) s

/-- LD VX, K: the lowest fresh press edge, or pc back by 2 to retry at the next step (R182). -/
def execGetKeyBlocking (x : Nibble) (s : State) : Host.Outcome State Fault Refusal :=
  match freshKeys s with
  | [] => complete (setPc ((advance s).pc - 2) (advance s))
  | k :: _ => complete (setReg x (BitVec.ofNat 8 k) (advance s))

/-- LD VX, DT (R183). -/
def execGetDelay (x : Nibble) (s : State) : Host.Outcome State Fault Refusal :=
  complete (setReg x s.dt (advance s))

/-- LD DT, VX (R184). -/
def execSetDelay (x : Nibble) (s : State) : Host.Outcome State Fault Refusal :=
  complete (setDelayTimer (reg s x) (advance s))

/-- LD ST, VX (R185). -/
def execSetSound (x : Nibble) (s : State) : Host.Outcome State Fault Refusal :=
  complete (setSoundTimer (reg s x) (advance s))

end Sys2Proof.Machine
end

