-- ==== Sys2Proof/Machine/Memory.lean ====
section
/-!
DEFINITION. The meanings of 43_index_memory.md. `s` is the state before the step: every operand is read from it (R92), and
a bounds fault comes before any write (R96).
-/

namespace Sys2Proof.Machine

/-- LD I, NNN (R150). -/
def execSetIndex (nnn : Addr) (s : State) : Host.Outcome State Fault Refusal :=
  complete (setIndexReg (addrWord nnn) (advance s))

/-- ADD I, VX: VF is set to 1 when the new I exceeds 0x0FFF, and not written otherwise (R151). -/
def execAddToIndex (x : Nibble) (s : State) : Host.Outcome State Fault Refusal :=
  let t := indexSum s.index (reg s x)
  let u := setIndexReg t (advance s)
  complete (if indexOverflow t then setReg vf 1 u else u)

/-- LD F, VX (R152). -/
def execFontChar (x : Nibble) (s : State) : Host.Outcome State Fault Refusal :=
  complete (setIndexReg (glyphAddr s.params (reg s x)) (advance s))

/-- LD B, VX (R153). -/
def execBcd (x : Nibble) (s : State) : Host.Outcome State Fault Refusal :=
  match accessFault s 3 with
  | some a => raise .memBounds a (.bcd x) s
  | none => complete (writeBytes (effAddr s 0) (bcdDigits (reg s x)) (advance s))

/-- LD [I], VX (R154). -/
def execStoreRegs (x : Nibble) (s : State) : Host.Outcome State Fault Refusal :=
  match accessFault s (rangeCount x) with
  | some a => raise .memBounds a (.storeRegs x) s
  | none => complete (writeBytes (effAddr s 0) (regRange s x) (advance s))

/-- LD VX, [I] (R155). -/
def execLoadRegs (x : Nibble) (s : State) : Host.Outcome State Fault Refusal :=
  match accessFault s (rangeCount x) with
  | some a => raise .memBounds a (.loadRegs x) s
  | none => complete (setRegsFrom 0 (bytesAtIndex s (rangeCount x)) (advance s))

end Sys2Proof.Machine
end

