-- ==== Sys2Proof/Machine/Events.lean ====
section
/-!
DEFINITION. What each event of the host does (R38), and the next event in the environment's order (R222).
-/

namespace Sys2Proof.Machine

/-- One step of a running core: fetch, decode, execute (R91, R93). A word that is no instruction is the no-op (R77, R94). -/
def runInstruction (s : State) : Host.Outcome State Fault Refusal :=
  match fetchWord s with
  | .error a => .next (takeFault .fetchBounds a none s)
  | .ok w =>
    match decodeWord w with
    | .ok i => exec i s
    | .error _ => noOp s

/-- Step: one instruction when RUNNING, no effect otherwise (R90, R206). -/
def eventStep (s : State) : Host.Outcome State Fault Refusal :=
  match s.runState with
  | .running => runInstruction s
  | .stopped => .next s
  | .faulted => .next s

/-- One decrement of a timer, never below zero (R30, R220). -/
def countDown (b : Byte) : Byte := if b = 0 then 0 else b - 1

/-- Tick: both timers when RUNNING, no effect otherwise (R220). -/
def eventTick (s : State) : Host.Outcome State Fault Refusal :=
  match s.runState with
  | .running => .next { s with dt := countDown s.dt, st := countDown s.st }
  | .stopped => .next s
  | .faulted => .next s

/-- Reset: accepted in every RUNSTATE (R240, R241). -/
def eventReset (s : State) : Host.Outcome State Fault Refusal := .next (resetMachine s)

/-- Load: only when STOPPED and not LOADED; a ROM that is too long changes nothing and signals LoadError (R243). -/
def eventLoad (bytes : List Byte) (s : State) : Host.Outcome State Fault Refusal :=
  if s.runState = .stopped ∧ s.loaded = false then
    if romMax < bytes.length then .next { s with outputs := s.outputs ++ [.loadError] }
    else .next { writeBytes progBase bytes s with loaded := true }
  else .refused .loadNotAdmitted

/-- Start: a core that is STOPPED and LOADED runs; elsewhere the event is refused, or has no effect when RUNNING, and the state
stays as it is (R244, R206; vectors RC-5 and RC-7; assumption log 9). -/
def eventStart (s : State) : Host.Outcome State Fault Refusal :=
  if s.runState = .stopped ∧ s.loaded = true then .next (setRunState .running s) else .next s

/-- Stop: RUNNING becomes STOPPED, no effect otherwise (R245). -/
def eventStop (s : State) : Host.Outcome State Fault Refusal :=
  match s.runState with
  | .running => .next (setRunState .stopped s)
  | .stopped => .next s
  | .faulted => .next s

/-- KeyDown(k) and KeyUp(k): accepted in every RUNSTATE for k in 0..15 (R225). -/
def eventKey (k : Nat) (down : Bool) (s : State) : Host.Outcome State Fault Refusal :=
  if k < 16 then .next (setHostKey k down s) else .refused .keyOutside

/-- Pixel(x, y): answers the pixel and changes no state of the core (R32). -/
def eventPixel (x y : Nat) (s : State) : Host.Outcome State Fault Refusal :=
  if x < 64 ∧ y < 32 then .next { s with outputs := s.outputs ++ [.pixel x y (pixelAt s.disp x y)] }
  else .refused .pixelOutside

/-- One event of the host (R38). -/
def applyEvent (e : Event) (s : State) : Host.Outcome State Fault Refusal :=
  match e with
  | .step => eventStep s
  | .tick => eventTick s
  | .reset => eventReset s
  | .load bytes => eventLoad bytes s
  | .start => eventStart s
  | .stop => eventStop s
  | .keyDown k => eventKey k true s
  | .keyUp k => eventKey k false s
  | .pixel x y => eventPixel x y s

/-- The next event in the order the environment chose (R222); when no event is listed, a Step (assumption log 4). -/
def nextEvent (s : State) : Host.Outcome State Fault Refusal :=
  match s.inputs with
  | [] => eventStep s
  | e :: rest => applyEvent e { s with inputs := rest }

end Sys2Proof.Machine
end

