-- ==== Sys2Proof/Machine/Step.lean ====
section
/-!
DEFINITION. One step of the machine: the next event of the host, a Step event unless another is listed (R90, R222).
-/

namespace Sys2Proof.Machine

/-- One event, atomic (R59, R222). -/
def step (s : State) : Host.Outcome State Fault Refusal := nextEvent s

/-- `s` with an instruction stored where the next step fetches, and running (assumption log 7). -/
def State.withFetchWord (s : State) (nbits w : Nat) : State := placeWord (tableWord nbits w) s

end Sys2Proof.Machine
end

