-- ==== Sys2Proof/Safety.lean ====
section
/-!
DEFINITION. The terms the claims are stated in: the invariant of a safe machine, what a fault records (R200, R204), and the
frame of an instruction (what it leaves unchanged).
-/

namespace Sys2Proof.Machine

/-! Frames. -/

/-- The components of R20 that an instruction may write beside pc and KeyPrev, and the count of random draws. -/
inductive Component where
  | mem
  | regs
  | index
  | stack
  | delay
  | sound
  | display
  | draws
deriving DecidableEq, Repr

/-- A component reads the same in two states; memory byte by byte. -/
def Unchanged : Component → State → State → Prop
  | .mem, s, t => ∀ a, readByte t a = readByte s a
  | .regs, s, t => ∀ r, reg t r = reg s r
  | .index, s, t => t.index = s.index
  | .stack, s, t => t.stack = s.stack
  | .delay, s, t => t.dt = s.dt
  | .sound, s, t => t.st = s.st
  | .display, s, t => t.disp = s.disp
  | .draws, s, t => t.draws = s.draws

/-- What no instruction writes (R34, R37, R208): the host's keys, LOADED, and the fields that are not the core's. -/
structure HostSideKept (s t : State) : Prop where
  params : t.params = s.params
  hostKey : t.hostKey = s.hostKey
  loaded : t.loaded = s.loaded
  inputs : t.inputs = s.inputs
  outputs : t.outputs = s.outputs

/-- RUNSTATE and the fault registers (R37), which only a fault writes (R204). -/
structure FaultRegsKept (s t : State) : Prop where
  runState : t.runState = s.runState
  faultCause : t.faultCause = s.faultCause
  faultPc : t.faultPc = s.faultPc
  faultOpcode : t.faultOpcode = s.faultOpcode
  faultOpcodeValid : t.faultOpcodeValid = s.faultOpcodeValid
  faultInfo : t.faultInfo = s.faultInfo

/-- The frame of a step that does not fault: beside pc it changes at most the components of `cs`, and KeyPrev takes the key
sample (R36, R93). -/
structure OnlyChanges (cs : List Component) (s t : State) : Prop where
  hostSide : HostSideKept s t
  faultRegs : FaultRegsKept s t
  keyPrev : t.keyPrev = s.hostKey
  rest : ∀ c, c ∉ cs → Unchanged c s t

/-- Every general register but those of `rs` is unchanged. -/
def RegsKeptBut (rs : List Nibble) (s t : State) : Prop := ∀ r, r ∉ rs → reg t r = reg s r

/-- Every byte of memory outside the `n` bytes at `a` is unchanged. -/
def BytesKeptOutside (a n : Nat) (s t : State) : Prop := ∀ b, (b < a ∨ a + n ≤ b) → readByte t b = readByte s b

/-! Faults. -/

/-- The state that R204 prescribes: fault `f` with information `info`, the word `op` valid or not, all else as before. -/
def faultedState (f : Fault) (info : Nat) (op : Word) (valid : Bool) (s : State) : State :=
  { s with
    runState := .faulted
    faultCause := some f
    faultPc := s.pc
    faultOpcode := op
    faultOpcodeValid := valid
    faultInfo := BitVec.ofNat 17 info }

/-- Instruction `i` ends in fault `f` (R204), its word recorded. -/
def FaultsWith (i : Instr) (f : Fault) (info : Nat) (s : State) : Prop :=
  exec i s = .next (faultedState f info (encode i) true s)

/-- The instruction that the two bytes at pc hold, high byte first (R56, R91). -/
def Fetches (s : State) (i : Instr) : Prop :=
  s.pc.toNat + 1 < 4096 ∧ decodeWord (readByte s s.pc.toNat ++ readByte s (s.pc.toNat + 1)) = .ok i

/-- How many data bytes at I an instruction accesses (R58). -/
def accessBytes : Instr → Nat
  | .draw _ _ n => n.toNat
  | .bcd _ => 3
  | .storeRegs x => x.toNat + 1
  | .loadRegs x => x.toNat + 1
  | _ => 0

/-- `a` is the first address at or above 4096 among the `n` addresses from `base` (R52, R200). -/
def FirstOutside (base n a : Nat) : Prop :=
  base ≤ a ∧ a < base + n ∧ 4096 ≤ a ∧ ∀ b, base ≤ b → b < a → b < 4096

/-- The causes of R200, each with its FAULT_INFO, as conditions on a state about to step. -/
def FaultCondition (s : State) (info : Nat) : Fault → Prop
  | .fetchBounds => FirstOutside s.pc.toNat 2 info
  | .memBounds => ∃ i, Fetches s i ∧ FirstOutside s.index.toNat (accessBytes i) info
  | .stackUnderflow => Fetches s .ret ∧ s.stack = [] ∧ info = 0
  | .stackOverflow => ∃ nnn, Fetches s (.call nnn) ∧ s.stack.length = s.params.stackDepth ∧ info = s.params.stackDepth
  | .keyIndex => ∃ x, (Fetches s (.skipKeyDown x) ∨ Fetches s (.skipKeyUp x)) ∧ 15 < (reg s x).toNat ∧ info = (reg s x).toNat

/-- The one fault an instruction can raise in its execute phase (R200, R205). -/
def faultOf : Instr → Option Fault
  | .ret => some .stackUnderflow
  | .call _ => some .stackOverflow
  | .draw _ _ _ | .bcd _ | .storeRegs _ | .loadRegs _ => some .memBounds
  | .skipKeyDown _ | .skipKeyUp _ => some .keyIndex
  | _ => none

/-! The invariant. -/

/-- The values FAULT_INFO can hold after each fault (R200). -/
def InfoInRange (p : Params) (info : Nat) : Fault → Prop
  | .fetchBounds => 0x1000 ≤ info ∧ info ≤ 0x10000
  | .memBounds => 0x1000 ≤ info ∧ info ≤ 0xFFFF
  | .stackUnderflow => info = 0
  | .stackOverflow => info = p.stackDepth
  | .keyIndex => 0x10 ≤ info ∧ info ≤ 0xFF

/-- The fault registers tell the truth: all zero unless FAULTED, and then the cause, the faulting address, which is still pc,
a word that can raise that cause (or none after a fetch fault), and an information in the cause's range (R37, R200, R204). -/
def FaultRegsTell (s : State) : Prop :=
  match s.faultCause with
  | none =>
    s.runState ≠ .faulted ∧ s.faultPc = 0 ∧ s.faultOpcode = 0 ∧ s.faultOpcodeValid = false ∧ s.faultInfo = 0
  | some f =>
    s.runState = .faulted ∧ s.faultPc = s.pc ∧ InfoInRange s.params s.faultInfo.toNat f ∧
    if f = .fetchBounds then s.faultOpcode = 0 ∧ s.faultOpcodeValid = false
    else s.faultOpcodeValid = true ∧ ∃ i, decodeWord s.faultOpcode = .ok i ∧ faultOf i = some f

/-- The invariant of the machine: the parameters meet R9's constraints and the bound of assumption log 2, memory is in
canonical form, the stack is not deeper than STACK_DEPTH (R27), a core that has left STOPPED is loaded (R244), and the fault
registers tell the truth. -/
structure Inv (s : State) : Prop where
  params : s.params.wf = true
  mem : Memory.wf s.params s.mem
  stack : s.stack.length ≤ s.params.stackDepth
  loaded : s.runState ≠ .stopped → s.loaded = true
  faultRegs : FaultRegsTell s

/-- A safe state: the core has not faulted (R204). -/
def Safe (s : State) : Prop := s.runState ≠ .faulted

end Sys2Proof.Machine
end

