-- ==== Sys2Proof/WellFormed.lean ====
section
/-!
DEFINITION. Which instructions have a word of their own. Every 4-bit register field is valid (R74) and every immediate
fits its field by its type (R73), so the one check is that `sys` does not claim the words of `clear` and `ret` (R76).
-/

namespace Sys2Proof

/-- `sys` is 0NNN "when w is neither 0x00E0 nor 0x00EE" (R76); every other instruction is well formed as it is typed. -/
def Instr.wellFormed : Instr → Bool
  | .sys nnn => nnn != 0x0E0 && nnn != 0x0EE
  | .clear | .ret | .jump _ | .call _ | .skipEqImm _ _ | .skipNeImm _ _ | .skipEqReg _ _ | .setImm _ _ | .addImm _ _
  | .aluCopy _ _ | .aluOr _ _ | .aluAnd _ _ | .aluXor _ _ | .aluAdd _ _ | .aluSub _ _ | .aluShr _ _ | .aluSubn _ _
  | .aluShl _ _ | .skipNeReg _ _ | .setIndex _ | .jumpOffset _ | .random _ _ | .draw _ _ _ | .skipKeyDown _
  | .skipKeyUp _ | .getDelay _ | .getKeyBlocking _ | .setDelay _ | .setSound _ | .addToIndex _ | .fontChar _ | .bcd _
  | .storeRegs _ | .loadRegs _ => true

end Sys2Proof
end

