-- ==== Sys2Proof/Certificates/Slice0/Obligations.lean ====
section
/-!
DEFINITION. The statements for the provers. In a statement about an instruction, `s` is the state before the step, and the
conclusion is the state that `exec` answers: its result, pc, and the frame (`OnlyChanges`). An instruction statement also gives
the word of the instruction, so that it says what its rule says of the encoding.
-/

open Sys2Proof Sys2Proof.Machine

/-! Encoding and decoding. -/

/-- R70, R71, R76: decoding the word of any well-formed instruction gives it back, every operand field included. -/
def Obligations.DecodeOfEncode : Prop :=
  ∀ i : Instr, i.wellFormed = true → decodeWord (encode i) = .ok i

/-- R76, the other direction: a word that decodes has one meaning, and it is the word of that meaning. -/
def Obligations.EncodeOfDecode : Prop :=
  ∀ (w : Word) (i : Instr), decodeWord w = .ok i → i.wellFormed = true ∧ encode i = w

/-- R76 in mask and match form: a word selects the row that its fixed bits match (a word of 0NNN, `sys`, only "when w is
neither 0x00E0 nor 0x00EE"); a word that matches no row selects no instruction; and no two rows match one word. -/
def Obligations.RowSelectedByMaskAndMatch : Prop :=
  (∀ (w : Word) (i : Instr), w &&& (patternOf i).1 = (patternOf i).2 →
    ((patternOf i).2 = 0 → w ≠ 0x00E0 ∧ w ≠ 0x00EE) →
    ∃ j, decodeWord w = .ok j ∧ patternOf j = patternOf i) ∧
  (∀ w : Word, (∀ i, w &&& (patternOf i).1 ≠ (patternOf i).2) → ∃ e, decodeWord w = .error e) ∧
  (∀ (w : Word) (i j : Instr), w &&& (patternOf i).1 = (patternOf i).2 → w &&& (patternOf j).1 = (patternOf j).2 →
    ((patternOf i).2 = 0 ∨ (patternOf j).2 = 0 → w ≠ 0x00E0 ∧ w ≠ 0x00EE) → patternOf i = patternOf j)

/-- R77: the words that select no instruction are exactly those of the five spaces. -/
def Obligations.RejectedWordsAreTheFiveSpaces : Prop :=
  ∀ w : Word, (∃ e, decodeWord w = .error e) ↔
    (w &&& 0xF000 = 0x5000 ∧ w &&& 0x000F ≠ 0) ∨
    (w &&& 0xF000 = 0x8000 ∧ w &&& 0x000F ∈ [0x8, 0x9, 0xA, 0xB, 0xC, 0xD, (0xF : Word)]) ∨
    (w &&& 0xF000 = 0x9000 ∧ w &&& 0x000F ≠ 0) ∨
    (w &&& 0xF000 = 0xE000 ∧ w &&& 0x00FF ∉ [0x9E, (0xA1 : Word)]) ∨
    (w &&& 0xF000 = 0xF000 ∧ w &&& 0x00FF ∉ [0x07, 0x0A, 0x15, 0x18, 0x1E, 0x29, 0x33, 0x55, (0x65 : Word)])

/-- R75: one written-out word of each family decodes to the instruction it stands for. -/
def Obligations.WrittenWordsDecode : Prop :=
  decodeWord 0x00EE = .ok .ret ∧ decodeWord 0x0123 = .ok (.sys 0x123) ∧ decodeWord 0x2210 = .ok (.call 0x210) ∧
  decodeWord 0x3105 = .ok (.skipEqImm 1 0x05) ∧ decodeWord 0x83A6 = .ok (.aluShr 3 0xA) ∧
  decodeWord 0x8127 = .ok (.aluSubn 1 2) ∧ decodeWord 0xA300 = .ok (.setIndex 0x300) ∧
  decodeWord 0xD235 = .ok (.draw 2 3 5) ∧ decodeWord 0xE1A1 = .ok (.skipKeyUp 1) ∧
  decodeWord 0xF255 = .ok (.storeRegs 2) ∧ decodeWord 0x5AB1 = .error .unrecognised5

/-! The step (40_step_cycle.md, 60_exceptions.md). -/

/-- R90, R91, R93, R56: a step of a running core executes the instruction that the two bytes at pc hold, the first the high
byte; `step` adds nothing around `exec`. The Step event is the next input, or no input is listed (assumption log 4). -/
def Obligations.StepRunsDecodedInstruction : Prop :=
  ∀ (s : State) (i : Instr), s.runState = .running → Fetches s i →
    (s.inputs = [] → step s = exec i s) ∧
    (∀ rest, s.inputs = .step :: rest → step s = exec i { s with inputs := rest })

/-- R94: in a step of a running core with no input listed, whose next event is then a Step (the model's choice, assumption log
4), a word that no row of the table matches, and every 0NNN but 00E0 and 00EE, advances pc by 2 and does nothing else (KeyPrev
takes the key sample, as at the end of every step). The second part is the 0NNN word as an instruction: it completes. A listed
Step does the same (ListedStepActsAsUnlisted). -/
def Obligations.UnrecognisedWordsAndSysAreNoOps : Prop :=
  (∀ (s : State) (w : Word), s.runState = .running → s.inputs = [] → s.pc.toNat + 1 < 4096 →
    readByte s s.pc.toNat ++ readByte s (s.pc.toNat + 1) = w →
    ((∀ i, w &&& (patternOf i).1 ≠ (patternOf i).2) ∨ (w &&& 0xF000 = 0 ∧ w ≠ 0x00E0 ∧ w ≠ 0x00EE)) →
    step s = .next { s with pc := s.pc + 2, keyPrev := s.hostKey }) ∧
  (∀ (nnn : Addr) (s : State), ∃ t, exec (.sys nnn) s = .next t ∧ t.pc = s.pc + 2 ∧ OnlyChanges [] s t)

/-- R90: a Step has no effect when RUNSTATE is STOPPED or FAULTED (the spec's decision D19); with no input listed the next event
is a Step (assumption log 4). -/
def Obligations.StepIdleUnlessRunning : Prop :=
  ∀ s : State, s.runState ≠ .running →
    (s.inputs = [] → step s = .next s) ∧
    (∀ rest, s.inputs = .step :: rest → step s = .next { s with inputs := rest })

/-- R91, R96, R200, R204, R205, in one step of a running core with no input listed, whose next event is then a Step (the model's
choice, assumption log 4): it faults exactly on the conditions of R200's table, at most one of which holds; the fault leaves
everything as it was but RUNSTATE and the fault registers, which record cause (the code that the host reads is the table's), pc,
the fetched word (0 and invalid for a fetch fault) and information. In every other such state the step completes: it stays
RUNNING with the fault registers unchanged and KeyPrev takes the key sample. The stack's depth and its fault are the spec's
decision D7, the key index fault D12, the bounds of the fetch D30, the fault procedure and its codes D16 and D17. -/
def Obligations.StepFaultsExactlyAsListed : Prop :=
  ∀ s : State, s.runState = .running → s.inputs = [] →
    (∀ f info, FaultCondition s info f →
      step s = .next (match f with
        | .fetchBounds => faultedState f info 0 false s
        | _ => faultedState f info (readByte s s.pc.toNat ++ readByte s (s.pc.toNat + 1)) true s)) ∧
    (∀ f info t, FaultCondition s info f → step s = .next t → t.runState.code = 2 ∧
      faultCauseCode t = (match f with
        | .fetchBounds => 1
        | .memBounds => 2
        | .stackUnderflow => 3
        | .stackOverflow => 4
        | .keyIndex => 5)) ∧
    (∀ f g a b, FaultCondition s a f → FaultCondition s b g → f = g ∧ a = b) ∧
    ((∀ f info, ¬ FaultCondition s info f) →
      ∃ t, step s = .next t ∧ t.runState = .running ∧ FaultRegsKept s t ∧ t.keyPrev = s.hostKey)

/-- R200, R205: an instruction that faults does so for its one cause, and then it changes nothing but RUNSTATE and the fault
registers (R204). -/
def Obligations.InstructionFaultsForItsOneCause : Prop :=
  ∀ (i : Instr) (s t : State), s.runState ≠ .faulted → exec i s = .next t → t.runState = .faulted →
    ∃ f info, faultOf i = some f ∧ t = faultedState f info (encode i) true s

/-- R22, R23: every general register that R23's table does not list as written by an instruction is unchanged by it. -/
def Obligations.RegistersWrittenAsListed : Prop :=
  ∀ (i : Instr) (s t : State), exec i s = .next t → ∀ r : Nibble,
    (match i with
      | .setImm x _ | .addImm x _ | .aluCopy x _ | .aluOr x _ | .aluAnd x _ | .aluXor x _ | .random x _ | .getDelay x
      | .getKeyBlocking x => r ≠ x
      | .aluAdd x _ | .aluSub x _ | .aluSubn x _ | .aluShr x _ | .aluShl x _ => r ≠ x ∧ r ≠ 15
      | .draw _ _ _ | .addToIndex _ => r ≠ 15
      | .loadRegs x => x < r
      | _ => True) →
    reg t r = reg s r

/-- R25, R27, R29, R31, R34, R37, R51, R208: beside the general registers, each component is written only by the instructions
that the rule of the component names; memory only by bcd and store-regs, the display only by clear and draw, the stack only
by call and return, I only by set-index, add-to-index and font-char, DT only by set-delay, ST only by set-sound; and no
instruction writes the host's keys or LOADED. -/
def Obligations.ComponentsWrittenOnlyByTheirInstructions : Prop :=
  ∀ (i : Instr) (s t : State), exec i s = .next t →
    HostSideKept s t ∧
    ((∀ x, i ≠ .bcd x ∧ i ≠ .storeRegs x) → ∀ a, readByte t a = readByte s a) ∧
    (i ≠ .clear → (∀ x y n, i ≠ .draw x y n) → t.disp = s.disp) ∧
    (i ≠ .ret → (∀ nnn, i ≠ .call nnn) → t.stack = s.stack) ∧
    ((∀ nnn, i ≠ .setIndex nnn) → (∀ x, i ≠ .addToIndex x ∧ i ≠ .fontChar x) → t.index = s.index) ∧
    ((∀ x, i ≠ .setDelay x) → t.dt = s.dt) ∧
    ((∀ x, i ≠ .setSound x) → t.st = s.st)

/-- R26, R108: an instruction that completes leaves pc advanced by 2, or by 4 for a skip, or where a jump, a call or a return
puts it, or, for a waiting FX0A, where it was. -/
def Obligations.PcMovesAsListed : Prop :=
  ∀ (i : Instr) (s t : State), exec i s = .next t →
    match i with
    | .jump nnn => t.pc = nnn.setWidth 16
    | .call nnn => t.pc = nnn.setWidth 16 ∨ t = faultedState .stackOverflow s.stack.length (encode i) true s
    | .ret => (∃ l, s.stack = l ++ [t.pc]) ∨ t = faultedState .stackUnderflow 0 (encode i) true s
    | .jumpOffset nnn => t.pc.toNat = nnn.toNat + (reg s 0).toNat
    | .skipEqImm _ _ | .skipNeImm _ _ | .skipEqReg _ _ | .skipNeReg _ _ => t.pc = s.pc + 2 ∨ t.pc = s.pc + 4
    | .skipKeyDown _ | .skipKeyUp _ => t.pc = s.pc + 2 ∨ t.pc = s.pc + 4 ∨ (t.pc = s.pc ∧ ¬ Safe t)
    | .getKeyBlocking _ => t.pc = s.pc + 2 ∨ t.pc = s.pc
    | .draw _ _ _ | .bcd _ | .storeRegs _ | .loadRegs _ => t.pc = s.pc + 2 ∨ (t.pc = s.pc ∧ ¬ Safe t)
    | _ => t.pc = s.pc + 2

/-! Control transfer (41_control_flow.md). -/

/-- R100 (with R28): RET takes the newest entry of the stack into pc, unchecked; on an empty stack it is a StackUnderflow and
changes nothing else. -/
def Obligations.ReturnPopsOrUnderflows : Prop :=
  decodeWord 0x00EE = .ok .ret ∧
  (∀ (s : State) (l : List Word) (w : Word), s.stack = l ++ [w] →
    ∃ t, exec .ret s = .next t ∧ t.pc = w ∧ t.stack = l ∧ OnlyChanges [.stack] s t) ∧
  (∀ s : State, s.stack = [] → FaultsWith .ret .stackUnderflow 0 s)

/-- R101: JP goes to NNN, unchecked, and changes nothing else. -/
def Obligations.JumpAssignsPc : Prop :=
  ∀ (nnn : Addr) (s : State),
    decodeWord (0x1#4 ++ nnn) = .ok (.jump nnn) ∧
    ∃ t, exec (.jump nnn) s = .next t ∧ t.pc.toNat = nnn.toNat ∧ OnlyChanges [] s t

/-- R103: JP V0 goes to NNN + V0, always V0 whatever the top nibble of NNN, unchecked and without wrap (the spec's decision
D5). -/
def Obligations.JumpOffsetAddsV0 : Prop :=
  ∀ (nnn : Addr) (s : State),
    decodeWord (0xB#4 ++ nnn) = .ok (.jumpOffset nnn) ∧
    ∃ t, exec (.jumpOffset nnn) s = .next t ∧ t.pc.toNat = nnn.toNat + (reg s 0).toNat ∧ OnlyChanges [] s t

/-- R102 (with R27): CALL pushes the address of the instruction after it and goes to NNN; on a full stack it is a
StackOverflow and changes nothing else (the depth and its fault are the spec's decision D7). -/
def Obligations.CallPushesOrOverflows : Prop :=
  ∀ (nnn : Addr) (s : State),
    decodeWord (0x2#4 ++ nnn) = .ok (.call nnn) ∧
    (s.stack.length ≠ s.params.stackDepth →
      ∃ t, exec (.call nnn) s = .next t ∧ t.pc.toNat = nnn.toNat ∧ t.stack = s.stack ++ [s.pc + 2] ∧
        OnlyChanges [.stack] s t) ∧
    (s.stack.length = s.params.stackDepth → FaultsWith (.call nnn) .stackOverflow s.params.stackDepth s)

/-- R100, R102 (the source's example E7): a return that finds the stack as a call left it goes to the instruction after the
call, with the stack as it was before the call. -/
def Obligations.ReturnUndoesCall : Prop :=
  ∀ (nnn : Addr) (s t u : State), exec (.call nnn) s = .next t → t.runState ≠ .faulted → u.stack = t.stack →
    ∃ r, exec .ret u = .next r ∧ r.pc = s.pc + 2 ∧ r.stack = s.stack ∧ OnlyChanges [.stack] u r

/-- R104, R105: the skips on an immediate, as tests on unsigned values; a taken skip passes exactly 2 bytes more. -/
def Obligations.SkipsCompareImmediate : Prop :=
  ∀ (x : Nibble) (nn : Byte) (s : State),
    decodeWord (0x3#4 ++ x ++ nn) = .ok (.skipEqImm x nn) ∧ decodeWord (0x4#4 ++ x ++ nn) = .ok (.skipNeImm x nn) ∧
    (∃ t, exec (.skipEqImm x nn) s = .next t ∧ t.pc = (if (reg s x).toNat = nn.toNat then s.pc + 4 else s.pc + 2) ∧
      OnlyChanges [] s t) ∧
    (∃ t, exec (.skipNeImm x nn) s = .next t ∧ t.pc = (if (reg s x).toNat = nn.toNat then s.pc + 2 else s.pc + 4) ∧
      OnlyChanges [] s t)

/-- R106, R107: the skips on two registers. A word 5XYn or 9XYn with n ≠ 0 is none of them (the spec's decision D2). -/
def Obligations.SkipsCompareRegisters : Prop :=
  ∀ (x y : Nibble) (s : State),
    (decodeWord (0x5#4 ++ x ++ y ++ 0x0#4) = .ok (.skipEqReg x y) ∧
      decodeWord (0x9#4 ++ x ++ y ++ 0x0#4) = .ok (.skipNeReg x y) ∧
      ∀ n : Nibble, n ≠ 0 → decodeWord (0x5#4 ++ x ++ y ++ n) = .error .unrecognised5 ∧
        decodeWord (0x9#4 ++ x ++ y ++ n) = .error .unrecognised9) ∧
    (∃ t, exec (.skipEqReg x y) s = .next t ∧
      t.pc = (if (reg s x).toNat = (reg s y).toNat then s.pc + 4 else s.pc + 2) ∧ OnlyChanges [] s t) ∧
    (∃ t, exec (.skipNeReg x y) s = .next t ∧
      t.pc = (if (reg s x).toNat = (reg s y).toNat then s.pc + 2 else s.pc + 4) ∧ OnlyChanges [] s t)

/-! Registers and arithmetic (42_register_alu.md). -/

/-- R120, R121: 6XNN writes NN; 7XNN adds NN modulo 256 and has no flag side effect (VF changes only when X = F). -/
def Obligations.ImmediateFormsWriteVx : Prop :=
  ∀ (x : Nibble) (nn : Byte) (s : State),
    decodeWord (0x6#4 ++ x ++ nn) = .ok (.setImm x nn) ∧ decodeWord (0x7#4 ++ x ++ nn) = .ok (.addImm x nn) ∧
    (∃ t, exec (.setImm x nn) s = .next t ∧ reg t x = nn ∧ RegsKeptBut [x] s t ∧ t.pc = s.pc + 2 ∧
      OnlyChanges [.regs] s t) ∧
    (∃ t, exec (.addImm x nn) s = .next t ∧ (reg t x).toNat = ((reg s x).toNat + nn.toNat) % 256 ∧ RegsKeptBut [x] s t ∧
      t.pc = s.pc + 2 ∧ OnlyChanges [.regs] s t)

/-- R122 to R125: copy, OR, AND, XOR; VF changes only when X = F (the spec's decision D25). -/
def Obligations.LogicFormsWriteVxOnly : Prop :=
  ∀ (x y : Nibble) (s : State),
    (decodeWord (0x8#4 ++ x ++ y ++ 0x0#4) = .ok (.aluCopy x y) ∧ decodeWord (0x8#4 ++ x ++ y ++ 0x1#4) = .ok (.aluOr x y) ∧
      decodeWord (0x8#4 ++ x ++ y ++ 0x2#4) = .ok (.aluAnd x y) ∧
      decodeWord (0x8#4 ++ x ++ y ++ 0x3#4) = .ok (.aluXor x y)) ∧
    (∃ t, exec (.aluCopy x y) s = .next t ∧ reg t x = reg s y ∧ RegsKeptBut [x] s t ∧ t.pc = s.pc + 2 ∧
      OnlyChanges [.regs] s t) ∧
    (∃ t, exec (.aluOr x y) s = .next t ∧ (∀ k, (reg t x).getLsbD k = ((reg s x).getLsbD k || (reg s y).getLsbD k)) ∧
      RegsKeptBut [x] s t ∧ t.pc = s.pc + 2 ∧ OnlyChanges [.regs] s t) ∧
    (∃ t, exec (.aluAnd x y) s = .next t ∧ (∀ k, (reg t x).getLsbD k = ((reg s x).getLsbD k && (reg s y).getLsbD k)) ∧
      RegsKeptBut [x] s t ∧ t.pc = s.pc + 2 ∧ OnlyChanges [.regs] s t) ∧
    (∃ t, exec (.aluXor x y) s = .next t ∧ (∀ k, (reg t x).getLsbD k = ((reg s x).getLsbD k ^^ (reg s y).getLsbD k)) ∧
      RegsKeptBut [x] s t ∧ t.pc = s.pc + 2 ∧ OnlyChanges [.regs] s t)

/-- R126: 8XY4 writes the sum modulo 256, then VF = 1 exactly when the unbounded sum exceeds 255; with X = F the flag is what
VF ends as. Both are computed from the values before the step (the spec's decisions D3, D4). -/
def Obligations.AddSetsCarry : Prop :=
  ∀ (x y : Nibble) (s : State),
    decodeWord (0x8#4 ++ x ++ y ++ 0x4#4) = .ok (.aluAdd x y) ∧
    ∃ t, exec (.aluAdd x y) s = .next t ∧
      (x ≠ 15 → (reg t x).toNat = ((reg s x).toNat + (reg s y).toNat) % 256) ∧
      (reg t 15).toNat = (if (reg s x).toNat + (reg s y).toNat > 255 then 1 else 0) ∧
      RegsKeptBut [x, 15] s t ∧ t.pc = s.pc + 2 ∧ OnlyChanges [.regs] s t

/-- R127, R129: 8XY5 and 8XY7 write VF = 1 exactly when no borrow occurs, then the difference modulo 256; with X = F the
difference is what VF ends as. Both are computed from the values before the step (the spec's decisions D3, D4). -/
def Obligations.SubtractSetsNotBorrow : Prop :=
  ∀ (x y : Nibble) (s : State),
    decodeWord (0x8#4 ++ x ++ y ++ 0x5#4) = .ok (.aluSub x y) ∧ decodeWord (0x8#4 ++ x ++ y ++ 0x7#4) = .ok (.aluSubn x y) ∧
    (∃ t, exec (.aluSub x y) s = .next t ∧
      ((reg t x).toNat : Int) = ((reg s x).toNat - (reg s y).toNat : Int) % 256 ∧
      (x ≠ 15 → (reg t 15).toNat = if (reg s x).toNat ≥ (reg s y).toNat then 1 else 0) ∧
      RegsKeptBut [x, 15] s t ∧ t.pc = s.pc + 2 ∧ OnlyChanges [.regs] s t) ∧
    (∃ t, exec (.aluSubn x y) s = .next t ∧
      ((reg t x).toNat : Int) = ((reg s y).toNat - (reg s x).toNat : Int) % 256 ∧
      (x ≠ 15 → (reg t 15).toNat = if (reg s y).toNat ≥ (reg s x).toNat then 1 else 0) ∧
      RegsKeptBut [x, 15] s t ∧ t.pc = s.pc + 2 ∧ OnlyChanges [.regs] s t)

/-- R128, R130: 8XY6 and 8XYE shift VX in place whatever Y is; VF is the bit shifted out, written before the result, so with
X = F the result is what VF ends as (the spec's decision D4). -/
def Obligations.ShiftsInPlace : Prop :=
  ∀ (x y : Nibble) (s : State),
    decodeWord (0x8#4 ++ x ++ y ++ 0x6#4) = .ok (.aluShr x y) ∧ decodeWord (0x8#4 ++ x ++ y ++ 0xE#4) = .ok (.aluShl x y) ∧
    (∃ t, exec (.aluShr x y) s = .next t ∧ (reg t x).toNat = (reg s x).toNat / 2 ∧
      (x ≠ 15 → (reg t 15).toNat = (reg s x).toNat % 2) ∧
      RegsKeptBut [x, 15] s t ∧ t.pc = s.pc + 2 ∧ OnlyChanges [.regs] s t) ∧
    (∃ t, exec (.aluShl x y) s = .next t ∧ (reg t x).toNat = 2 * (reg s x).toNat % 256 ∧
      (x ≠ 15 → (reg t 15).toNat = (reg s x).toNat / 128) ∧
      RegsKeptBut [x, 15] s t ∧ t.pc = s.pc + 2 ∧ OnlyChanges [.regs] s t)

/-- R131, R228: CXNN writes the draw AND NN, whatever byte the draw gives (the free value of assumption log 3), and the next
draw is another one (the spec's decision D15); every bit outside NN is 0. -/
def Obligations.RandomIsMaskedDraw : Prop :=
  ∀ (x : Nibble) (nn : Byte) (s : State),
    decodeWord (0xC#4 ++ x ++ nn) = .ok (.random x nn) ∧
    ∃ t, exec (.random x nn) s = .next t ∧
      (∀ k, (reg t x).getLsbD k = ((Config.randByte s.draws).getLsbD k && nn.getLsbD k)) ∧ t.draws = s.draws + 1 ∧
      RegsKeptBut [x] s t ∧ t.pc = s.pc + 2 ∧ OnlyChanges [.regs, .draws] s t

/-! Index register and memory (43_index_memory.md). -/

/-- R150: ANNN sets I to NNN and changes nothing else. -/
def Obligations.SetIndexLoadsImmediate : Prop :=
  ∀ (nnn : Addr) (s : State),
    decodeWord (0xA#4 ++ nnn) = .ok (.setIndex nnn) ∧
    ∃ t, exec (.setIndex nnn) s = .next t ∧ t.index.toNat = nnn.toNat ∧ t.pc = s.pc + 2 ∧ OnlyChanges [.index] s t

/-- R152: FX29 sets I to the address of the glyph that the low nibble of VX selects, whatever FONT_BASE is (the spec's decision
D8 leaves it open; assumption log 1). The premise of the value is R9's constraints on the parameters with the bound on
STACK_DEPTH of assumption log 2, part of the invariant. -/
def Obligations.FontCharSelectsGlyph : Prop :=
  ∀ (x : Nibble) (s : State),
    decodeWord (0xF#4 ++ x ++ 0x29#8) = .ok (.fontChar x) ∧
    ∃ t, exec (.fontChar x) s = .next t ∧
      (s.params.wf = true → t.index.toNat = s.params.fontBase + 5 * ((reg s x).toNat % 16)) ∧
      t.pc = s.pc + 2 ∧ OnlyChanges [.index] s t

/-- R151: FX1E adds VX to I modulo 2^16 (the wrap is the spec's decision D6); VF becomes 1 when the new I exceeds 0x0FFF and
is not written otherwise. -/
def Obligations.AddToIndexFlagsOverflow : Prop :=
  ∀ (x : Nibble) (s : State),
    decodeWord (0xF#4 ++ x ++ 0x1E#8) = .ok (.addToIndex x) ∧
    ∃ t, exec (.addToIndex x) s = .next t ∧ t.index.toNat = (s.index.toNat + (reg s x).toNat) % 65536 ∧
      reg t 15 = (if 0x0FFF < t.index.toNat then 1 else reg s 15) ∧
      RegsKeptBut [15] s t ∧ t.pc = s.pc + 2 ∧ OnlyChanges [.index, .regs] s t

/-- R153: FX33 stores the decimal digits of VX at I, I+1, I+2 and nothing else, I unchanged; an address of 4096 or above is a
MemBounds and nothing is stored. The premise on memory is part of the invariant. -/
def Obligations.BcdStoresDigits : Prop :=
  ∀ (x : Nibble) (s : State), Memory.wf s.params s.mem →
    decodeWord (0xF#4 ++ x ++ 0x33#8) = .ok (.bcd x) ∧
    (s.index.toNat + 2 < 4096 →
      ∃ t, exec (.bcd x) s = .next t ∧
        (readByte t s.index.toNat).toNat = (reg s x).toNat / 100 ∧
        (readByte t (s.index.toNat + 1)).toNat = (reg s x).toNat / 10 % 10 ∧
        (readByte t (s.index.toNat + 2)).toNat = (reg s x).toNat % 10 ∧
        BytesKeptOutside s.index.toNat 3 s t ∧ t.pc = s.pc + 2 ∧ OnlyChanges [.mem] s t) ∧
    (4096 ≤ s.index.toNat + 2 → FaultsWith (.bcd x) .memBounds (max s.index.toNat 4096) s)

/-- R154: FX55 stores V0..VX at I..I+X and nothing else, I unchanged; when I + X is 4096 or above it is a MemBounds and
nothing is stored. The premise on memory is part of the invariant. -/
def Obligations.StoreRegsWritesRange : Prop :=
  ∀ (x : Nibble) (s : State), Memory.wf s.params s.mem →
    decodeWord (0xF#4 ++ x ++ 0x55#8) = .ok (.storeRegs x) ∧
    (s.index.toNat + x.toNat < 4096 →
      ∃ t, exec (.storeRegs x) s = .next t ∧
        (∀ r : Nibble, r ≤ x → readByte t (s.index.toNat + r.toNat) = reg s r) ∧
        BytesKeptOutside s.index.toNat (x.toNat + 1) s t ∧ t.pc = s.pc + 2 ∧ OnlyChanges [.mem] s t) ∧
    (4096 ≤ s.index.toNat + x.toNat → FaultsWith (.storeRegs x) .memBounds (max s.index.toNat 4096) s)

/-- R155: FX65 loads V0..VX from I..I+X, every register above X and I unchanged; when I + X is 4096 or above it is a
MemBounds and no register is written. -/
def Obligations.LoadRegsReadsRange : Prop :=
  ∀ (x : Nibble) (s : State),
    decodeWord (0xF#4 ++ x ++ 0x65#8) = .ok (.loadRegs x) ∧
    (s.index.toNat + x.toNat < 4096 →
      ∃ t, exec (.loadRegs x) s = .next t ∧
        (∀ r : Nibble, reg t r = if r ≤ x then readByte s (s.index.toNat + r.toNat) else reg s r) ∧
        t.pc = s.pc + 2 ∧ OnlyChanges [.regs] s t) ∧
    (4096 ≤ s.index.toNat + x.toNat → FaultsWith (.loadRegs x) .memBounds (max s.index.toNat 4096) s)

/-- R155 (the source's example E8): store-regs, then load-regs at the same I and X in any state whose memory is what the
store left, gives V0..VX the values they had, and touches no other register. -/
def Obligations.StoreThenLoadRoundTrips : Prop :=
  ∀ (x : Nibble) (s t u : State), Memory.wf s.params s.mem → exec (.storeRegs x) s = .next t → t.runState ≠ .faulted →
    (∀ a, readByte u a = readByte t a) → u.index = s.index →
    ∃ r, exec (.loadRegs x) u = .next r ∧
      (∀ k : Nibble, reg r k = if k ≤ x then reg s k else reg u k) ∧ r.index = s.index ∧ OnlyChanges [.regs] u r

/-- R63: a store is seen by the next fetch: after store-regs, a core whose pc lies on stored bytes fetches the registers'
values, and its next step, with no input listed (the model's choice that this is a Step: assumption log 4), runs the instruction
they hold. StoredDigitsAreFetchedNext says the same of bcd, and ListedStepActsAsUnlisted that a listed Step does what this one
does. -/
def Obligations.StoredCodeIsFetchedNext : Prop :=
  ∀ (x k : Nibble) (s t : State) (i : Instr), Memory.wf s.params s.mem → exec (.storeRegs x) s = .next t →
    t.runState = .running → t.inputs = [] → k < x → t.pc.toNat = s.index.toNat + k.toNat →
    decodeWord (reg s k ++ reg s (k + 1)) = .ok i → step t = exec i t

/-! Display (44_display.md). -/

/-- R170 (the source's example E5): CLS turns every pixel off and changes nothing else, VF included. -/
def Obligations.ClearTurnsEveryPixelOff : Prop :=
  decodeWord 0x00E0 = .ok .clear ∧
  ∀ s : State, ∃ t, exec .clear s = .next t ∧ (∀ x y, x < 64 → y < 32 → pixelAt t.disp x y = false) ∧
    t.pc = s.pc + 2 ∧ OnlyChanges [.display] s t

/-- R171: DXYN flips exactly the visible pixels whose sprite bit is 1, the start wrapped and the edges clipped, and VF is 1
exactly when one of them was on; when a sprite byte is at 4096 or above it is a MemBounds and nothing is drawn. The order of
the bits in a row is R172's, which the spec marks [from general knowledge, not in source] (assumption log 14). -/
def Obligations.DrawFlipsVisibleSpritePixels : Prop :=
  ∀ (x y n : Nibble) (s : State),
    decodeWord (0xD#4 ++ x ++ y ++ n) = .ok (.draw x y n) ∧
    (n = 0 ∨ s.index.toNat + n.toNat ≤ 4096 →
      ∃ t, exec (.draw x y n) s = .next t ∧
        (∀ px py, px < 64 → py < 32 → (pixelAt t.disp px py ≠ pixelAt s.disp px py ↔
          ∃ r c, r < n.toNat ∧ c < 8 ∧ px = (reg s x).toNat % 64 + c ∧ py = (reg s y).toNat % 32 + r ∧
            (readByte s (s.index.toNat + r)).getLsbD (7 - c) = true)) ∧
        ((∃ px py, px < 64 ∧ py < 32 ∧ pixelAt s.disp px py = true ∧ pixelAt t.disp px py = false) → reg t 15 = 1) ∧
        ((∀ px py, px < 64 → py < 32 → pixelAt s.disp px py = true → pixelAt t.disp px py = true) → reg t 15 = 0) ∧
        RegsKeptBut [15] s t ∧ t.pc = s.pc + 2 ∧ OnlyChanges [.regs, .display] s t) ∧
    (n ≠ 0 → 4096 < s.index.toNat + n.toNat → FaultsWith (.draw x y n) .memBounds (max s.index.toNat 4096) s)

/-- R173: a second draw that finds the display as a first draw left it, and the sprite bytes, I, VX and VY as the first draw
found them, restores every pixel, and its VF is 1 exactly when the first draw turned a pixel on. With nothing between the
draws that is so when X ≠ F and Y ≠ F, since the first draw writes no other register. -/
def Obligations.DrawingTwiceRestoresDisplay : Prop :=
  ∀ (x y n : Nibble) (s t u : State), exec (.draw x y n) s = .next t → t.runState ≠ .faulted →
    u.disp = t.disp → (∀ a, readByte u a = readByte s a) → u.index = s.index → reg u x = reg s x → reg u y = reg s y →
    ∃ r, exec (.draw x y n) u = .next r ∧ r.disp = s.disp ∧
      (reg r 15 = 1 ↔ ∃ px py, px < 64 ∧ py < 32 ∧ pixelAt s.disp px py = false ∧ pixelAt t.disp px py = true) ∧
      (reg r 15 = 0 ∨ reg r 15 = 1) ∧ RegsKeptBut [15] u r ∧ OnlyChanges [.regs, .display] u r

/-! Keypad and timers (45_input_timers.md). -/

/-- R180, R181: SKP skips when the key that VX names is down, SKNP when it is up; a VX above 15 is a KeyIndex fault (the
spec's decision D12) and changes nothing else. -/
def Obligations.KeySkipsTestHostKey : Prop :=
  ∀ (x : Nibble) (s : State),
    decodeWord (0xE#4 ++ x ++ 0x9E#8) = .ok (.skipKeyDown x) ∧ decodeWord (0xE#4 ++ x ++ 0xA1#8) = .ok (.skipKeyUp x) ∧
    (∀ h : (reg s x).toNat < 16,
      (∃ t, exec (.skipKeyDown x) s = .next t ∧
        t.pc = (if s.hostKey[(reg s x).toNat] = true then s.pc + 4 else s.pc + 2) ∧ OnlyChanges [] s t) ∧
      (∃ t, exec (.skipKeyUp x) s = .next t ∧
        t.pc = (if s.hostKey[(reg s x).toNat] = true then s.pc + 2 else s.pc + 4) ∧ OnlyChanges [] s t)) ∧
    (15 < (reg s x).toNat →
      FaultsWith (.skipKeyDown x) .keyIndex (reg s x).toNat s ∧ FaultsWith (.skipKeyUp x) .keyIndex (reg s x).toNat s)

/-- R182: FX0A takes the lowest key that is down in this step's sample and up in the snapshot of the step before (D14); when
there is none it leaves pc where it was, and only KeyPrev changes. -/
def Obligations.KeyWaitTakesLowestFreshPress : Prop :=
  ∀ (x : Nibble) (s : State),
    decodeWord (0xF#4 ++ x ++ 0x0A#8) = .ok (.getKeyBlocking x) ∧
    (∀ k : Fin 16, s.hostKey[k] = true → s.keyPrev[k] = false →
      (∀ j : Fin 16, j < k → s.hostKey[j] = true → s.keyPrev[j] = true) →
      ∃ t, exec (.getKeyBlocking x) s = .next t ∧ (reg t x).toNat = k.val ∧ RegsKeptBut [x] s t ∧ t.pc = s.pc + 2 ∧
        OnlyChanges [.regs] s t) ∧
    ((∀ k : Fin 16, s.hostKey[k] = true → s.keyPrev[k] = true) →
      ∃ t, exec (.getKeyBlocking x) s = .next t ∧ t.pc = s.pc ∧ OnlyChanges [] s t)

/-- R183, R184: FX07 reads DT and FX15 writes DT; neither changes anything else. -/
def Obligations.DelayTimerTransfers : Prop :=
  ∀ (x : Nibble) (s : State),
    decodeWord (0xF#4 ++ x ++ 0x07#8) = .ok (.getDelay x) ∧ decodeWord (0xF#4 ++ x ++ 0x15#8) = .ok (.setDelay x) ∧
    (∃ t, exec (.getDelay x) s = .next t ∧ reg t x = s.dt ∧ RegsKeptBut [x] s t ∧ t.pc = s.pc + 2 ∧
      OnlyChanges [.regs] s t) ∧
    (∃ t, exec (.setDelay x) s = .next t ∧ t.dt = reg s x ∧ t.pc = s.pc + 2 ∧ OnlyChanges [.delay] s t)

/-- R185 (and R43): FX18 writes ST, and SOUND_ACTIVE is then 1 exactly when VX is not 0 (the spec's decision D22). -/
def Obligations.SetSoundDrivesLevel : Prop :=
  ∀ (x : Nibble) (s : State),
    decodeWord (0xF#4 ++ x ++ 0x18#8) = .ok (.setSound x) ∧
    ∃ t, exec (.setSound x) s = .next t ∧ t.st = reg s x ∧ (soundActive t = true ↔ reg s x ≠ 0) ∧ t.pc = s.pc + 2 ∧
      OnlyChanges [.sound] s t

/-! Events of the host (60_exceptions.md, 70_reset_and_hazards.md). -/

/-- R220: a Tick of a running core decrements each nonzero timer once and touches nothing else; in STOPPED and FAULTED it has
no effect (the spec's decision D29). -/
def Obligations.TickDecrementsTimers : Prop :=
  ∀ (s : State) (rest : List Event), s.inputs = .tick :: rest →
    (s.runState = .running → ∃ t, step s = .next t ∧ t.dt.toNat = s.dt.toNat - 1 ∧ t.st.toNat = s.st.toNat - 1 ∧
      t = { s with dt := t.dt, st := t.st, inputs := rest }) ∧
    (s.runState ≠ .running → step s = .next { s with inputs := rest })

/-- R30, R220 (the source's example E10): after any number of ticks a timer is its old value less that number, never below
zero. -/
def Obligations.TicksNeverGoBelowZero : Prop :=
  ∀ (n : Nat) (s : State) (rest : List Event), s.runState = .running → s.inputs = List.replicate n .tick ++ rest →
    ∃ t, Host.Core.run core n s = .next t ∧ t.dt.toNat = s.dt.toNat - n ∧ t.st.toNat = s.st.toNat - n ∧
      t = { s with dt := t.dt, st := t.st, inputs := rest }

/-- R222, R249: a tick that falls just before or just after an instruction makes no difference, unless the instruction reads
or writes a timer or faults: for every instruction but FX07, FX15 and FX18 that completes, the two orders leave the same
state. -/
def Obligations.TickCommutesWithOtherInstructions : Prop :=
  ∀ (i : Instr) (s t : State), (∀ x, i ≠ .getDelay x ∧ i ≠ .setDelay x ∧ i ≠ .setSound x) → s.runState = .running →
    exec i s = .next t → Safe t →
    ∃ s' u, applyEvent .tick s = .next s' ∧ exec i s' = .next u ∧ applyEvent .tick t = .next u

/-- R34, R225: a key event writes its key's flag and nothing else, in every RUNSTATE; a key outside 0..15 is refused (the
spec's decision D1; assumption log 9). -/
def Obligations.KeyEventsWriteOneFlag : Prop :=
  ∀ (s : State) (k : Nat) (down : Bool) (rest : List Event), s.inputs = (if down then .keyDown k else .keyUp k) :: rest →
    (k < 16 → ∃ t, step s = .next t ∧ (∀ j : Fin 16, t.hostKey[j] = if j.val = k then down else s.hostKey[j]) ∧
      t = { s with hostKey := t.hostKey, inputs := rest }) ∧
    (16 ≤ k → step s = .refused .keyOutside)

/-- R243: Load is admitted only when STOPPED and not LOADED; it copies the ROM to 0x200 and sets LOADED; a ROM longer than
3584 bytes changes nothing and signals LoadError; elsewhere it is refused (the spec's decision D20; assumption log 9, 10).
The premise on memory is part of the invariant. -/
def Obligations.LoadCopiesRom : Prop :=
  ∀ (s : State) (bytes : List Byte) (rest : List Event), s.inputs = .load bytes :: rest → Memory.wf s.params s.mem →
    (s.runState = .stopped → s.loaded = false → bytes.length ≤ 3584 →
      ∃ t, step s = .next t ∧ t.loaded = true ∧
        (∀ k (h : k < bytes.length), readByte t (0x200 + k) = bytes[k]) ∧
        BytesKeptOutside 0x200 bytes.length s t ∧
        t = { s with mem := t.mem, loaded := true, inputs := rest }) ∧
    (s.runState = .stopped → s.loaded = false → 3584 < bytes.length →
      step s = .next { s with inputs := rest, outputs := s.outputs ++ [.loadError] }) ∧
    (s.runState ≠ .stopped ∨ s.loaded = true → step s = .refused .loadNotAdmitted)

/-- R244, R245: Start makes a stopped, loaded core run; when LOADED is 0 or the core has faulted it is refused, and when it is
RUNNING it has no effect: the state stays as it is (assumption log 9). Stop stops a running core, has no effect otherwise, and
keeps every other component (the spec's decisions D19, D33). -/
def Obligations.StartAndStop : Prop :=
  ∀ (s : State) (rest : List Event),
    (s.inputs = .start :: rest →
      (s.runState = .stopped → s.loaded = true → step s = .next { s with runState := .running, inputs := rest }) ∧
      (s.runState ≠ .stopped ∨ s.loaded = false → step s = .next { s with inputs := rest })) ∧
    (s.inputs = .stop :: rest →
      (s.runState = .running → step s = .next { s with runState := .stopped, inputs := rest }) ∧
      (s.runState ≠ .running → step s = .next { s with inputs := rest }))

/-- R240, R241: Reset, in every RUNSTATE, leaves every component at the value R20's table gives: memory zero but for the
font. The parameters are fixed, and the model's own history goes on (assumption log 8). The values that the source does not
give are the spec's decision D18. -/
def Obligations.ResetSetsEveryComponent : Prop :=
  ∀ (s : State) (rest : List Event), s.inputs = .reset :: rest →
    ∃ t, step s = .next t ∧
      (∀ r, reg t r = 0) ∧ t.index = 0 ∧ t.pc = 0x200 ∧ t.stack = [] ∧ t.dt = 0 ∧ t.st = 0 ∧
      (∀ x y, pixelAt t.disp x y = false) ∧ (∀ k, keyAt t.hostKey k = false ∧ keyAt t.keyPrev k = false) ∧
      t.runState = .stopped ∧ t.loaded = false ∧
      t.faultCause = none ∧ t.faultPc = 0 ∧ t.faultOpcode = 0 ∧ t.faultOpcodeValid = false ∧ t.faultInfo = 0 ∧
      (∀ k (h : k < 80), readByte t (s.params.fontBase + k) = s.params.fontData[k]) ∧
      (∀ a, (a < s.params.fontBase ∨ s.params.fontBase + 80 ≤ a) → readByte t a = 0) ∧
      t.params = s.params ∧ t.draws = s.draws ∧ t.inputs = rest ∧ t.outputs = s.outputs

/-- R242, R246: after Reset, Load of a ROM that begins with an instruction's word, and Start, the next Step executes that
instruction, fetched at 0x200. -/
def Obligations.BootExecutesAtResetVector : Prop :=
  ∀ (s : State) (hi lo : Byte) (bytes : List Byte) (rest : List Event) (i : Instr),
    s.inputs = [.reset, .load (hi :: lo :: bytes), .start, .step] ++ rest → (hi :: lo :: bytes).length ≤ 3584 →
    decodeWord (hi ++ lo) = .ok i →
    ∃ t, Host.Core.run core 3 s = .next t ∧ t.pc = 0x200 ∧ t.runState = .running ∧ Fetches t i ∧
      step t = exec i { t with inputs := rest }

/-- R206: a faulted core stays faulted, with the registers, memory, stack, timers, display, KeyPrev and fault registers as they are,
whatever event comes, until a Reset; Step, Tick, Stop and the refused Start change nothing, Load is refused, key events still
update HostKey, which alone may change. A Reset leaves FAULTED (the spec's decision D19; assumption log 9). -/
def Obligations.FaultedUntilReset : Prop :=
  ∀ s : State, s.runState = .faulted →
    (∀ t, (∀ rest, s.inputs ≠ .reset :: rest) → step s = .next t →
      t = { s with hostKey := t.hostKey, inputs := t.inputs, outputs := t.outputs }) ∧
    (∀ e rest, s.inputs = e :: rest →
      (e = .step ∨ e = .tick ∨ e = .stop ∨ e = .start → step s = .next { s with inputs := rest }) ∧
      (∀ bytes, e = .load bytes → step s = .refused .loadNotAdmitted) ∧
      (∀ k, k < 16 → e = .keyDown k ∨ e = .keyUp k → ∃ t, step s = .next t ∧ t.runState = .faulted ∧
        ∀ j : Fin 16, t.hostKey[j] = if j.val = k then decide (e = .keyDown k) else s.hostKey[j]) ∧
      (e = .reset → ∃ t, step s = .next t ∧ t.runState = .stopped))

/-- R32: a pixel query answers the pixel and changes no state of the core; a query outside the grid is refused (the spec's
decision D28; assumption log 5, 9). -/
def Obligations.PixelQueryAnswers : Prop :=
  ∀ (s : State) (x y : Nat) (rest : List Event), s.inputs = .pixel x y :: rest →
    (∀ (hx : x < 64) (hy : y < 32),
      step s = .next { s with inputs := rest, outputs := s.outputs ++ [.pixel x y s.disp[x][y]] }) ∧
    (64 ≤ x ∨ 32 ≤ y → step s = .refused .pixelOutside)

/-! Invariants. -/

/-- R20, R240, R241, R242 at the state the model starts in: the values the spec gives for reset, with the suggested
parameters of R9 (assumption log 1). -/
def Obligations.ResetStateAsListed : Prop :=
  (∀ r, reg State.reset r = 0) ∧ State.reset.index = 0 ∧ State.reset.pc = 0x200 ∧ State.reset.stack = [] ∧
  State.reset.dt = 0 ∧ State.reset.st = 0 ∧ (∀ x y, pixelAt State.reset.disp x y = false) ∧
  (∀ k, keyAt State.reset.hostKey k = false ∧ keyAt State.reset.keyPrev k = false) ∧
  State.reset.runState = .stopped ∧ State.reset.loaded = false ∧ faultCauseCode State.reset = 0 ∧
  State.reset.faultPc = 0 ∧ State.reset.faultOpcode = 0 ∧ State.reset.faultOpcodeValid = false ∧
  State.reset.faultInfo = 0 ∧
  (∀ k (h : k < 80), readByte State.reset (0x050 + k) = suggestedFont[k]) ∧
  (∀ a, (a < 0x050 ∨ 0x050 + 80 ≤ a) → readByte State.reset a = 0)

/-- The invariant holds at State.reset, which carries the suggested parameters (assumption log 1), and in the reset state of
every choice of the parameters that meets R9's constraints and the bound STACK_DEPTH < 2^17, which R9 does not give (DEDUCED,
assumption log 2). -/
def Obligations.ResetMeetsInvariant : Prop :=
  Inv State.reset ∧ ∀ p : Params, p.wf = true → Inv (State.resetWith p)

/-- Every event, every instruction and every fault keeps the invariant: parameters that meet R9's constraints and the DEDUCED
bound STACK_DEPTH < 2^17 (assumption log 2), the memory's canonical form, the stack within STACK_DEPTH (R27), a core that is
loaded unless it is STOPPED (R244), and fault registers that are zero unless the core has faulted and then name a cause that the
recorded word can raise, the pc, and an information in the cause's range (R37, R200, R204). -/
def Obligations.StepKeepsInvariant : Prop :=
  ∀ s t : State, Inv s → step s = .next t → Inv t

/-! Steps that the host lists, and stores by bcd. -/

/-- R90, R222: a Step that the host lists does what a Step with no event listed does (the two forms of assumption log 4), in every
RUNSTATE and for every word at pc, instruction or not, faulting or not: it answers a next state, the same one but that the rest
of the list is still to come. -/
def Obligations.ListedStepActsAsUnlisted : Prop :=
  ∀ (s : State) (rest : List Event), s.inputs = .step :: rest →
    ∃ t, step { s with inputs := [] } = .next t ∧ step s = .next { t with inputs := rest }

/-- R63: a store by bcd is seen by the next fetch: a core whose pc lies on the first or the second stored digit fetches two digits, and
its next step runs the instruction they hold. The Step is the next input, or no input is listed (assumption log 4). -/
def Obligations.StoredDigitsAreFetchedNext : Prop :=
  ∀ (x : Nibble) (s t : State) (hi lo : Byte) (i : Instr), Memory.wf s.params s.mem → exec (.bcd x) s = .next t →
    t.runState = .running →
    (t.pc.toNat = s.index.toNat ∧ hi.toNat = (reg s x).toNat / 100 ∧ lo.toNat = (reg s x).toNat / 10 % 10) ∨
    (t.pc.toNat = s.index.toNat + 1 ∧ hi.toNat = (reg s x).toNat / 10 % 10 ∧ lo.toNat = (reg s x).toNat % 10) →
    decodeWord (hi ++ lo) = .ok i →
    Fetches t i ∧ (t.inputs = [] → step t = exec i t) ∧
    (∀ rest, t.inputs = .step :: rest → step t = exec i { t with inputs := rest })
end

