-- ==== Sys2Proof/Laws/Decode.lean ====
section
/-!
SUPPORT. Words as numbers and the fields of the formats of R72: a word of each format, taken apart, gives its fields back.
-/

namespace Sys2Proof

theorem toNat_formatA (a : Nibble) (nnn : Addr) : (a ++ nnn : Word).toNat = a.toNat * 4096 + nnn.toNat := by
  rw [BitVec.toNat_append, ← Nat.shiftLeft_add_eq_or_of_lt nnn.isLt, Nat.shiftLeft_eq]

theorem toNat_formatXI (a x : Nibble) (nn : Byte) :
    (a ++ x ++ nn : Word).toNat = a.toNat * 4096 + x.toNat * 256 + nn.toNat := by
  rw [BitVec.toNat_append, ← Nat.shiftLeft_add_eq_or_of_lt nn.isLt, BitVec.toNat_append,
    ← Nat.shiftLeft_add_eq_or_of_lt x.isLt]
  simp only [Nat.shiftLeft_eq]
  omega

theorem toNat_formatXY (a x y n : Nibble) :
    (a ++ x ++ y ++ n : Word).toNat = a.toNat * 4096 + x.toNat * 256 + y.toNat * 16 + n.toNat := by
  rw [BitVec.toNat_append, ← Nat.shiftLeft_add_eq_or_of_lt n.isLt, BitVec.toNat_append,
    ← Nat.shiftLeft_add_eq_or_of_lt y.isLt, BitVec.toNat_append, ← Nat.shiftLeft_add_eq_or_of_lt x.isLt]
  simp only [Nat.shiftLeft_eq]
  omega

/-- The bytes of a fetch as a number: the first is the high byte (R56). -/
theorem toNat_wordOfBytes (hi lo : Byte) : (wordOfBytes hi lo).toNat = hi.toNat * 256 + lo.toNat := by
  rw [wordOfBytes, BitVec.toNat_append, ← Nat.shiftLeft_add_eq_or_of_lt lo.isLt, Nat.shiftLeft_eq]

/-- The fields as numbers (R71). -/
theorem toNat_fieldsOf (w : Word) :
    (fieldsOf w).n1.toNat = w.toNat / 4096 ∧ (fieldsOf w).x.toNat = w.toNat / 256 % 16 ∧
    (fieldsOf w).y.toNat = w.toNat / 16 % 16 ∧ (fieldsOf w).n.toNat = w.toNat % 16 ∧
    (fieldsOf w).nn.toNat = w.toNat % 256 ∧ (fieldsOf w).nnn.toNat = w.toNat % 4096 := by
  have := w.isLt
  simp only [fieldsOf, BitVec.extractLsb'_toNat, Nat.shiftRight_eq_div_pow, Nat.reducePow, Nat.div_one]
  refine ⟨?_, trivial, trivial, trivial, trivial, trivial⟩
  omega

theorem fieldsOf_formatA (a : Nibble) (nnn : Addr) :
    (fieldsOf (a ++ nnn : Word)).n1 = a ∧ (fieldsOf (a ++ nnn : Word)).nnn = nnn := by
  have h := toNat_fieldsOf (a ++ nnn : Word)
  rw [toNat_formatA] at h
  have := a.isLt; have := nnn.isLt
  exact ⟨BitVec.eq_of_toNat_eq (by omega), BitVec.eq_of_toNat_eq (by omega)⟩

theorem fieldsOf_formatXI (a x : Nibble) (nn : Byte) :
    (fieldsOf (a ++ x ++ nn : Word)).n1 = a ∧ (fieldsOf (a ++ x ++ nn : Word)).x = x ∧
    (fieldsOf (a ++ x ++ nn : Word)).nn = nn := by
  have h := toNat_fieldsOf (a ++ x ++ nn : Word)
  rw [toNat_formatXI] at h
  have := a.isLt; have := x.isLt; have := nn.isLt
  exact ⟨BitVec.eq_of_toNat_eq (by omega), BitVec.eq_of_toNat_eq (by omega), BitVec.eq_of_toNat_eq (by omega)⟩

theorem fieldsOf_formatXY (a x y n : Nibble) :
    (fieldsOf (a ++ x ++ y ++ n : Word)).n1 = a ∧ (fieldsOf (a ++ x ++ y ++ n : Word)).x = x ∧
    (fieldsOf (a ++ x ++ y ++ n : Word)).y = y ∧ (fieldsOf (a ++ x ++ y ++ n : Word)).n = n := by
  have h := toNat_fieldsOf (a ++ x ++ y ++ n : Word)
  rw [toNat_formatXY] at h
  have := a.isLt; have := x.isLt; have := y.isLt; have := n.isLt
  exact ⟨BitVec.eq_of_toNat_eq (by omega), BitVec.eq_of_toNat_eq (by omega), BitVec.eq_of_toNat_eq (by omega),
    BitVec.eq_of_toNat_eq (by omega)⟩

/-- Decoding a word of format A looks at its two fields (R72, R76). -/
theorem decodeWord_formatA (a : Nibble) (nnn : Addr) :
    decodeWord (a ++ nnn : Word) = decodeFields { fieldsOf (a ++ nnn : Word) with n1 := a, nnn := nnn } := by
  obtain ⟨h1, h2⟩ := fieldsOf_formatA a nnn
  rw [decodeWord]
  congr 1
  cases h : fieldsOf (a ++ nnn : Word)
  simp_all

/-- Decoding a word of format XI or XO looks at its three fields (R72, R76). -/
theorem decodeWord_formatXI (a x : Nibble) (nn : Byte) :
    decodeWord (a ++ x ++ nn : Word) =
      decodeFields { fieldsOf (a ++ x ++ nn : Word) with n1 := a, x := x, nn := nn } := by
  obtain ⟨h1, h2, h3⟩ := fieldsOf_formatXI a x nn
  rw [decodeWord]
  congr 1
  cases h : fieldsOf (a ++ x ++ nn : Word)
  simp_all

/-- Decoding a word of format XY or XYN looks at its four fields (R72, R76). -/
theorem decodeWord_formatXY (a x y n : Nibble) :
    decodeWord (a ++ x ++ y ++ n : Word) =
      decodeFields { fieldsOf (a ++ x ++ y ++ n : Word) with n1 := a, x := x, y := y, n := n } := by
  obtain ⟨h1, h2, h3, h4⟩ := fieldsOf_formatXY a x y n
  rw [decodeWord]
  congr 1
  cases h : fieldsOf (a ++ x ++ y ++ n : Word)
  simp_all

/-- A word is its fields put together (R71). -/
theorem word_eq_fields (w : Word) :
    w = (fieldsOf w).n1 ++ (fieldsOf w).nnn ∧ w = (fieldsOf w).n1 ++ (fieldsOf w).x ++ (fieldsOf w).nn ∧
    w = (fieldsOf w).n1 ++ (fieldsOf w).x ++ (fieldsOf w).y ++ (fieldsOf w).n := by
  have h := toNat_fieldsOf w
  have := w.isLt
  refine ⟨BitVec.eq_of_toNat_eq ?_, BitVec.eq_of_toNat_eq ?_, BitVec.eq_of_toNat_eq ?_⟩
  · rw [toNat_formatA]; omega
  · rw [toNat_formatXI]; omega
  · rw [toNat_formatXY]; omega

/-- A word survives being laid out in memory and read back (R56). -/
theorem wordOfBytes_bytesOfWord (w : Word) : wordOfBytes (w.extractLsb' 8 8) (w.extractLsb' 0 8) = w := by
  apply BitVec.eq_of_toNat_eq
  have := w.isLt
  rw [toNat_wordOfBytes, BitVec.extractLsb'_toNat, BitVec.extractLsb'_toNat, Nat.shiftRight_eq_div_pow]
  omega

end Sys2Proof
end

