-- ==== Sys2Proof/Laws/State.lean ====
section
/-!
SUPPORT. Beside State: one lemma per field per named update, each true by definition, so that no proof unfolds a record
update.
-/

namespace Sys2Proof.Machine

/-! writeByte -/

@[simp] theorem writeByte_params (a : Nat) (x : Byte) (s : State) : (writeByte a x s).params = s.params := rfl
@[simp] theorem writeByte_mem (a : Nat) (x : Byte) (s : State) : (writeByte a x s).mem = writeCell (resetByte s.params a) a x s.mem := rfl
@[simp] theorem writeByte_v (a : Nat) (x : Byte) (s : State) : (writeByte a x s).v = s.v := rfl
@[simp] theorem writeByte_index (a : Nat) (x : Byte) (s : State) : (writeByte a x s).index = s.index := rfl
@[simp] theorem writeByte_pc (a : Nat) (x : Byte) (s : State) : (writeByte a x s).pc = s.pc := rfl
@[simp] theorem writeByte_stack (a : Nat) (x : Byte) (s : State) : (writeByte a x s).stack = s.stack := rfl
@[simp] theorem writeByte_dt (a : Nat) (x : Byte) (s : State) : (writeByte a x s).dt = s.dt := rfl
@[simp] theorem writeByte_st (a : Nat) (x : Byte) (s : State) : (writeByte a x s).st = s.st := rfl
@[simp] theorem writeByte_disp (a : Nat) (x : Byte) (s : State) : (writeByte a x s).disp = s.disp := rfl
@[simp] theorem writeByte_hostKey (a : Nat) (x : Byte) (s : State) : (writeByte a x s).hostKey = s.hostKey := rfl
@[simp] theorem writeByte_keyPrev (a : Nat) (x : Byte) (s : State) : (writeByte a x s).keyPrev = s.keyPrev := rfl
@[simp] theorem writeByte_runState (a : Nat) (x : Byte) (s : State) : (writeByte a x s).runState = s.runState := rfl
@[simp] theorem writeByte_faultCause (a : Nat) (x : Byte) (s : State) : (writeByte a x s).faultCause = s.faultCause := rfl
@[simp] theorem writeByte_faultPc (a : Nat) (x : Byte) (s : State) : (writeByte a x s).faultPc = s.faultPc := rfl
@[simp] theorem writeByte_faultOpcode (a : Nat) (x : Byte) (s : State) : (writeByte a x s).faultOpcode = s.faultOpcode := rfl
@[simp] theorem writeByte_faultOpcodeValid (a : Nat) (x : Byte) (s : State) : (writeByte a x s).faultOpcodeValid = s.faultOpcodeValid := rfl
@[simp] theorem writeByte_faultInfo (a : Nat) (x : Byte) (s : State) : (writeByte a x s).faultInfo = s.faultInfo := rfl
@[simp] theorem writeByte_loaded (a : Nat) (x : Byte) (s : State) : (writeByte a x s).loaded = s.loaded := rfl
@[simp] theorem writeByte_draws (a : Nat) (x : Byte) (s : State) : (writeByte a x s).draws = s.draws := rfl
@[simp] theorem writeByte_inputs (a : Nat) (x : Byte) (s : State) : (writeByte a x s).inputs = s.inputs := rfl
@[simp] theorem writeByte_outputs (a : Nat) (x : Byte) (s : State) : (writeByte a x s).outputs = s.outputs := rfl

/-! setReg -/

@[simp] theorem setReg_params (x : Nibble) (b : Byte) (s : State) : (setReg x b s).params = s.params := rfl
@[simp] theorem setReg_mem (x : Nibble) (b : Byte) (s : State) : (setReg x b s).mem = s.mem := rfl
@[simp] theorem setReg_v (x : Nibble) (b : Byte) (s : State) : (setReg x b s).v = s.v.set x.toNat b := rfl
@[simp] theorem setReg_index (x : Nibble) (b : Byte) (s : State) : (setReg x b s).index = s.index := rfl
@[simp] theorem setReg_pc (x : Nibble) (b : Byte) (s : State) : (setReg x b s).pc = s.pc := rfl
@[simp] theorem setReg_stack (x : Nibble) (b : Byte) (s : State) : (setReg x b s).stack = s.stack := rfl
@[simp] theorem setReg_dt (x : Nibble) (b : Byte) (s : State) : (setReg x b s).dt = s.dt := rfl
@[simp] theorem setReg_st (x : Nibble) (b : Byte) (s : State) : (setReg x b s).st = s.st := rfl
@[simp] theorem setReg_disp (x : Nibble) (b : Byte) (s : State) : (setReg x b s).disp = s.disp := rfl
@[simp] theorem setReg_hostKey (x : Nibble) (b : Byte) (s : State) : (setReg x b s).hostKey = s.hostKey := rfl
@[simp] theorem setReg_keyPrev (x : Nibble) (b : Byte) (s : State) : (setReg x b s).keyPrev = s.keyPrev := rfl
@[simp] theorem setReg_runState (x : Nibble) (b : Byte) (s : State) : (setReg x b s).runState = s.runState := rfl
@[simp] theorem setReg_faultCause (x : Nibble) (b : Byte) (s : State) : (setReg x b s).faultCause = s.faultCause := rfl
@[simp] theorem setReg_faultPc (x : Nibble) (b : Byte) (s : State) : (setReg x b s).faultPc = s.faultPc := rfl
@[simp] theorem setReg_faultOpcode (x : Nibble) (b : Byte) (s : State) : (setReg x b s).faultOpcode = s.faultOpcode := rfl
@[simp] theorem setReg_faultOpcodeValid (x : Nibble) (b : Byte) (s : State) : (setReg x b s).faultOpcodeValid = s.faultOpcodeValid := rfl
@[simp] theorem setReg_faultInfo (x : Nibble) (b : Byte) (s : State) : (setReg x b s).faultInfo = s.faultInfo := rfl
@[simp] theorem setReg_loaded (x : Nibble) (b : Byte) (s : State) : (setReg x b s).loaded = s.loaded := rfl
@[simp] theorem setReg_draws (x : Nibble) (b : Byte) (s : State) : (setReg x b s).draws = s.draws := rfl
@[simp] theorem setReg_inputs (x : Nibble) (b : Byte) (s : State) : (setReg x b s).inputs = s.inputs := rfl
@[simp] theorem setReg_outputs (x : Nibble) (b : Byte) (s : State) : (setReg x b s).outputs = s.outputs := rfl

/-! setIndexReg -/

@[simp] theorem setIndexReg_params (w : Word) (s : State) : (setIndexReg w s).params = s.params := rfl
@[simp] theorem setIndexReg_mem (w : Word) (s : State) : (setIndexReg w s).mem = s.mem := rfl
@[simp] theorem setIndexReg_v (w : Word) (s : State) : (setIndexReg w s).v = s.v := rfl
@[simp] theorem setIndexReg_index (w : Word) (s : State) : (setIndexReg w s).index = w := rfl
@[simp] theorem setIndexReg_pc (w : Word) (s : State) : (setIndexReg w s).pc = s.pc := rfl
@[simp] theorem setIndexReg_stack (w : Word) (s : State) : (setIndexReg w s).stack = s.stack := rfl
@[simp] theorem setIndexReg_dt (w : Word) (s : State) : (setIndexReg w s).dt = s.dt := rfl
@[simp] theorem setIndexReg_st (w : Word) (s : State) : (setIndexReg w s).st = s.st := rfl
@[simp] theorem setIndexReg_disp (w : Word) (s : State) : (setIndexReg w s).disp = s.disp := rfl
@[simp] theorem setIndexReg_hostKey (w : Word) (s : State) : (setIndexReg w s).hostKey = s.hostKey := rfl
@[simp] theorem setIndexReg_keyPrev (w : Word) (s : State) : (setIndexReg w s).keyPrev = s.keyPrev := rfl
@[simp] theorem setIndexReg_runState (w : Word) (s : State) : (setIndexReg w s).runState = s.runState := rfl
@[simp] theorem setIndexReg_faultCause (w : Word) (s : State) : (setIndexReg w s).faultCause = s.faultCause := rfl
@[simp] theorem setIndexReg_faultPc (w : Word) (s : State) : (setIndexReg w s).faultPc = s.faultPc := rfl
@[simp] theorem setIndexReg_faultOpcode (w : Word) (s : State) : (setIndexReg w s).faultOpcode = s.faultOpcode := rfl
@[simp] theorem setIndexReg_faultOpcodeValid (w : Word) (s : State) : (setIndexReg w s).faultOpcodeValid = s.faultOpcodeValid := rfl
@[simp] theorem setIndexReg_faultInfo (w : Word) (s : State) : (setIndexReg w s).faultInfo = s.faultInfo := rfl
@[simp] theorem setIndexReg_loaded (w : Word) (s : State) : (setIndexReg w s).loaded = s.loaded := rfl
@[simp] theorem setIndexReg_draws (w : Word) (s : State) : (setIndexReg w s).draws = s.draws := rfl
@[simp] theorem setIndexReg_inputs (w : Word) (s : State) : (setIndexReg w s).inputs = s.inputs := rfl
@[simp] theorem setIndexReg_outputs (w : Word) (s : State) : (setIndexReg w s).outputs = s.outputs := rfl

/-! setPc -/

@[simp] theorem setPc_params (w : Word) (s : State) : (setPc w s).params = s.params := rfl
@[simp] theorem setPc_mem (w : Word) (s : State) : (setPc w s).mem = s.mem := rfl
@[simp] theorem setPc_v (w : Word) (s : State) : (setPc w s).v = s.v := rfl
@[simp] theorem setPc_index (w : Word) (s : State) : (setPc w s).index = s.index := rfl
@[simp] theorem setPc_pc (w : Word) (s : State) : (setPc w s).pc = w := rfl
@[simp] theorem setPc_stack (w : Word) (s : State) : (setPc w s).stack = s.stack := rfl
@[simp] theorem setPc_dt (w : Word) (s : State) : (setPc w s).dt = s.dt := rfl
@[simp] theorem setPc_st (w : Word) (s : State) : (setPc w s).st = s.st := rfl
@[simp] theorem setPc_disp (w : Word) (s : State) : (setPc w s).disp = s.disp := rfl
@[simp] theorem setPc_hostKey (w : Word) (s : State) : (setPc w s).hostKey = s.hostKey := rfl
@[simp] theorem setPc_keyPrev (w : Word) (s : State) : (setPc w s).keyPrev = s.keyPrev := rfl
@[simp] theorem setPc_runState (w : Word) (s : State) : (setPc w s).runState = s.runState := rfl
@[simp] theorem setPc_faultCause (w : Word) (s : State) : (setPc w s).faultCause = s.faultCause := rfl
@[simp] theorem setPc_faultPc (w : Word) (s : State) : (setPc w s).faultPc = s.faultPc := rfl
@[simp] theorem setPc_faultOpcode (w : Word) (s : State) : (setPc w s).faultOpcode = s.faultOpcode := rfl
@[simp] theorem setPc_faultOpcodeValid (w : Word) (s : State) : (setPc w s).faultOpcodeValid = s.faultOpcodeValid := rfl
@[simp] theorem setPc_faultInfo (w : Word) (s : State) : (setPc w s).faultInfo = s.faultInfo := rfl
@[simp] theorem setPc_loaded (w : Word) (s : State) : (setPc w s).loaded = s.loaded := rfl
@[simp] theorem setPc_draws (w : Word) (s : State) : (setPc w s).draws = s.draws := rfl
@[simp] theorem setPc_inputs (w : Word) (s : State) : (setPc w s).inputs = s.inputs := rfl
@[simp] theorem setPc_outputs (w : Word) (s : State) : (setPc w s).outputs = s.outputs := rfl

/-! setDelayTimer -/

@[simp] theorem setDelayTimer_params (b : Byte) (s : State) : (setDelayTimer b s).params = s.params := rfl
@[simp] theorem setDelayTimer_mem (b : Byte) (s : State) : (setDelayTimer b s).mem = s.mem := rfl
@[simp] theorem setDelayTimer_v (b : Byte) (s : State) : (setDelayTimer b s).v = s.v := rfl
@[simp] theorem setDelayTimer_index (b : Byte) (s : State) : (setDelayTimer b s).index = s.index := rfl
@[simp] theorem setDelayTimer_pc (b : Byte) (s : State) : (setDelayTimer b s).pc = s.pc := rfl
@[simp] theorem setDelayTimer_stack (b : Byte) (s : State) : (setDelayTimer b s).stack = s.stack := rfl
@[simp] theorem setDelayTimer_dt (b : Byte) (s : State) : (setDelayTimer b s).dt = b := rfl
@[simp] theorem setDelayTimer_st (b : Byte) (s : State) : (setDelayTimer b s).st = s.st := rfl
@[simp] theorem setDelayTimer_disp (b : Byte) (s : State) : (setDelayTimer b s).disp = s.disp := rfl
@[simp] theorem setDelayTimer_hostKey (b : Byte) (s : State) : (setDelayTimer b s).hostKey = s.hostKey := rfl
@[simp] theorem setDelayTimer_keyPrev (b : Byte) (s : State) : (setDelayTimer b s).keyPrev = s.keyPrev := rfl
@[simp] theorem setDelayTimer_runState (b : Byte) (s : State) : (setDelayTimer b s).runState = s.runState := rfl
@[simp] theorem setDelayTimer_faultCause (b : Byte) (s : State) : (setDelayTimer b s).faultCause = s.faultCause := rfl
@[simp] theorem setDelayTimer_faultPc (b : Byte) (s : State) : (setDelayTimer b s).faultPc = s.faultPc := rfl
@[simp] theorem setDelayTimer_faultOpcode (b : Byte) (s : State) : (setDelayTimer b s).faultOpcode = s.faultOpcode := rfl
@[simp] theorem setDelayTimer_faultOpcodeValid (b : Byte) (s : State) : (setDelayTimer b s).faultOpcodeValid = s.faultOpcodeValid := rfl
@[simp] theorem setDelayTimer_faultInfo (b : Byte) (s : State) : (setDelayTimer b s).faultInfo = s.faultInfo := rfl
@[simp] theorem setDelayTimer_loaded (b : Byte) (s : State) : (setDelayTimer b s).loaded = s.loaded := rfl
@[simp] theorem setDelayTimer_draws (b : Byte) (s : State) : (setDelayTimer b s).draws = s.draws := rfl
@[simp] theorem setDelayTimer_inputs (b : Byte) (s : State) : (setDelayTimer b s).inputs = s.inputs := rfl
@[simp] theorem setDelayTimer_outputs (b : Byte) (s : State) : (setDelayTimer b s).outputs = s.outputs := rfl

/-! setSoundTimer -/

@[simp] theorem setSoundTimer_params (b : Byte) (s : State) : (setSoundTimer b s).params = s.params := rfl
@[simp] theorem setSoundTimer_mem (b : Byte) (s : State) : (setSoundTimer b s).mem = s.mem := rfl
@[simp] theorem setSoundTimer_v (b : Byte) (s : State) : (setSoundTimer b s).v = s.v := rfl
@[simp] theorem setSoundTimer_index (b : Byte) (s : State) : (setSoundTimer b s).index = s.index := rfl
@[simp] theorem setSoundTimer_pc (b : Byte) (s : State) : (setSoundTimer b s).pc = s.pc := rfl
@[simp] theorem setSoundTimer_stack (b : Byte) (s : State) : (setSoundTimer b s).stack = s.stack := rfl
@[simp] theorem setSoundTimer_dt (b : Byte) (s : State) : (setSoundTimer b s).dt = s.dt := rfl
@[simp] theorem setSoundTimer_st (b : Byte) (s : State) : (setSoundTimer b s).st = b := rfl
@[simp] theorem setSoundTimer_disp (b : Byte) (s : State) : (setSoundTimer b s).disp = s.disp := rfl
@[simp] theorem setSoundTimer_hostKey (b : Byte) (s : State) : (setSoundTimer b s).hostKey = s.hostKey := rfl
@[simp] theorem setSoundTimer_keyPrev (b : Byte) (s : State) : (setSoundTimer b s).keyPrev = s.keyPrev := rfl
@[simp] theorem setSoundTimer_runState (b : Byte) (s : State) : (setSoundTimer b s).runState = s.runState := rfl
@[simp] theorem setSoundTimer_faultCause (b : Byte) (s : State) : (setSoundTimer b s).faultCause = s.faultCause := rfl
@[simp] theorem setSoundTimer_faultPc (b : Byte) (s : State) : (setSoundTimer b s).faultPc = s.faultPc := rfl
@[simp] theorem setSoundTimer_faultOpcode (b : Byte) (s : State) : (setSoundTimer b s).faultOpcode = s.faultOpcode := rfl
@[simp] theorem setSoundTimer_faultOpcodeValid (b : Byte) (s : State) : (setSoundTimer b s).faultOpcodeValid = s.faultOpcodeValid := rfl
@[simp] theorem setSoundTimer_faultInfo (b : Byte) (s : State) : (setSoundTimer b s).faultInfo = s.faultInfo := rfl
@[simp] theorem setSoundTimer_loaded (b : Byte) (s : State) : (setSoundTimer b s).loaded = s.loaded := rfl
@[simp] theorem setSoundTimer_draws (b : Byte) (s : State) : (setSoundTimer b s).draws = s.draws := rfl
@[simp] theorem setSoundTimer_inputs (b : Byte) (s : State) : (setSoundTimer b s).inputs = s.inputs := rfl
@[simp] theorem setSoundTimer_outputs (b : Byte) (s : State) : (setSoundTimer b s).outputs = s.outputs := rfl

/-! setStack -/

@[simp] theorem setStack_params (l : List Word) (s : State) : (setStack l s).params = s.params := rfl
@[simp] theorem setStack_mem (l : List Word) (s : State) : (setStack l s).mem = s.mem := rfl
@[simp] theorem setStack_v (l : List Word) (s : State) : (setStack l s).v = s.v := rfl
@[simp] theorem setStack_index (l : List Word) (s : State) : (setStack l s).index = s.index := rfl
@[simp] theorem setStack_pc (l : List Word) (s : State) : (setStack l s).pc = s.pc := rfl
@[simp] theorem setStack_stack (l : List Word) (s : State) : (setStack l s).stack = l := rfl
@[simp] theorem setStack_dt (l : List Word) (s : State) : (setStack l s).dt = s.dt := rfl
@[simp] theorem setStack_st (l : List Word) (s : State) : (setStack l s).st = s.st := rfl
@[simp] theorem setStack_disp (l : List Word) (s : State) : (setStack l s).disp = s.disp := rfl
@[simp] theorem setStack_hostKey (l : List Word) (s : State) : (setStack l s).hostKey = s.hostKey := rfl
@[simp] theorem setStack_keyPrev (l : List Word) (s : State) : (setStack l s).keyPrev = s.keyPrev := rfl
@[simp] theorem setStack_runState (l : List Word) (s : State) : (setStack l s).runState = s.runState := rfl
@[simp] theorem setStack_faultCause (l : List Word) (s : State) : (setStack l s).faultCause = s.faultCause := rfl
@[simp] theorem setStack_faultPc (l : List Word) (s : State) : (setStack l s).faultPc = s.faultPc := rfl
@[simp] theorem setStack_faultOpcode (l : List Word) (s : State) : (setStack l s).faultOpcode = s.faultOpcode := rfl
@[simp] theorem setStack_faultOpcodeValid (l : List Word) (s : State) : (setStack l s).faultOpcodeValid = s.faultOpcodeValid := rfl
@[simp] theorem setStack_faultInfo (l : List Word) (s : State) : (setStack l s).faultInfo = s.faultInfo := rfl
@[simp] theorem setStack_loaded (l : List Word) (s : State) : (setStack l s).loaded = s.loaded := rfl
@[simp] theorem setStack_draws (l : List Word) (s : State) : (setStack l s).draws = s.draws := rfl
@[simp] theorem setStack_inputs (l : List Word) (s : State) : (setStack l s).inputs = s.inputs := rfl
@[simp] theorem setStack_outputs (l : List Word) (s : State) : (setStack l s).outputs = s.outputs := rfl

/-! setDisp -/

@[simp] theorem setDisp_params (d : Display) (s : State) : (setDisp d s).params = s.params := rfl
@[simp] theorem setDisp_mem (d : Display) (s : State) : (setDisp d s).mem = s.mem := rfl
@[simp] theorem setDisp_v (d : Display) (s : State) : (setDisp d s).v = s.v := rfl
@[simp] theorem setDisp_index (d : Display) (s : State) : (setDisp d s).index = s.index := rfl
@[simp] theorem setDisp_pc (d : Display) (s : State) : (setDisp d s).pc = s.pc := rfl
@[simp] theorem setDisp_stack (d : Display) (s : State) : (setDisp d s).stack = s.stack := rfl
@[simp] theorem setDisp_dt (d : Display) (s : State) : (setDisp d s).dt = s.dt := rfl
@[simp] theorem setDisp_st (d : Display) (s : State) : (setDisp d s).st = s.st := rfl
@[simp] theorem setDisp_disp (d : Display) (s : State) : (setDisp d s).disp = d := rfl
@[simp] theorem setDisp_hostKey (d : Display) (s : State) : (setDisp d s).hostKey = s.hostKey := rfl
@[simp] theorem setDisp_keyPrev (d : Display) (s : State) : (setDisp d s).keyPrev = s.keyPrev := rfl
@[simp] theorem setDisp_runState (d : Display) (s : State) : (setDisp d s).runState = s.runState := rfl
@[simp] theorem setDisp_faultCause (d : Display) (s : State) : (setDisp d s).faultCause = s.faultCause := rfl
@[simp] theorem setDisp_faultPc (d : Display) (s : State) : (setDisp d s).faultPc = s.faultPc := rfl
@[simp] theorem setDisp_faultOpcode (d : Display) (s : State) : (setDisp d s).faultOpcode = s.faultOpcode := rfl
@[simp] theorem setDisp_faultOpcodeValid (d : Display) (s : State) : (setDisp d s).faultOpcodeValid = s.faultOpcodeValid := rfl
@[simp] theorem setDisp_faultInfo (d : Display) (s : State) : (setDisp d s).faultInfo = s.faultInfo := rfl
@[simp] theorem setDisp_loaded (d : Display) (s : State) : (setDisp d s).loaded = s.loaded := rfl
@[simp] theorem setDisp_draws (d : Display) (s : State) : (setDisp d s).draws = s.draws := rfl
@[simp] theorem setDisp_inputs (d : Display) (s : State) : (setDisp d s).inputs = s.inputs := rfl
@[simp] theorem setDisp_outputs (d : Display) (s : State) : (setDisp d s).outputs = s.outputs := rfl

/-! setRunState -/

@[simp] theorem setRunState_params (r : RunState) (s : State) : (setRunState r s).params = s.params := rfl
@[simp] theorem setRunState_mem (r : RunState) (s : State) : (setRunState r s).mem = s.mem := rfl
@[simp] theorem setRunState_v (r : RunState) (s : State) : (setRunState r s).v = s.v := rfl
@[simp] theorem setRunState_index (r : RunState) (s : State) : (setRunState r s).index = s.index := rfl
@[simp] theorem setRunState_pc (r : RunState) (s : State) : (setRunState r s).pc = s.pc := rfl
@[simp] theorem setRunState_stack (r : RunState) (s : State) : (setRunState r s).stack = s.stack := rfl
@[simp] theorem setRunState_dt (r : RunState) (s : State) : (setRunState r s).dt = s.dt := rfl
@[simp] theorem setRunState_st (r : RunState) (s : State) : (setRunState r s).st = s.st := rfl
@[simp] theorem setRunState_disp (r : RunState) (s : State) : (setRunState r s).disp = s.disp := rfl
@[simp] theorem setRunState_hostKey (r : RunState) (s : State) : (setRunState r s).hostKey = s.hostKey := rfl
@[simp] theorem setRunState_keyPrev (r : RunState) (s : State) : (setRunState r s).keyPrev = s.keyPrev := rfl
@[simp] theorem setRunState_runState (r : RunState) (s : State) : (setRunState r s).runState = r := rfl
@[simp] theorem setRunState_faultCause (r : RunState) (s : State) : (setRunState r s).faultCause = s.faultCause := rfl
@[simp] theorem setRunState_faultPc (r : RunState) (s : State) : (setRunState r s).faultPc = s.faultPc := rfl
@[simp] theorem setRunState_faultOpcode (r : RunState) (s : State) : (setRunState r s).faultOpcode = s.faultOpcode := rfl
@[simp] theorem setRunState_faultOpcodeValid (r : RunState) (s : State) : (setRunState r s).faultOpcodeValid = s.faultOpcodeValid := rfl
@[simp] theorem setRunState_faultInfo (r : RunState) (s : State) : (setRunState r s).faultInfo = s.faultInfo := rfl
@[simp] theorem setRunState_loaded (r : RunState) (s : State) : (setRunState r s).loaded = s.loaded := rfl
@[simp] theorem setRunState_draws (r : RunState) (s : State) : (setRunState r s).draws = s.draws := rfl
@[simp] theorem setRunState_inputs (r : RunState) (s : State) : (setRunState r s).inputs = s.inputs := rfl
@[simp] theorem setRunState_outputs (r : RunState) (s : State) : (setRunState r s).outputs = s.outputs := rfl

/-! setHostKey -/

@[simp] theorem setHostKey_params (k : Nat) (b : Bool) (s : State) : (setHostKey k b s).params = s.params := rfl
@[simp] theorem setHostKey_mem (k : Nat) (b : Bool) (s : State) : (setHostKey k b s).mem = s.mem := rfl
@[simp] theorem setHostKey_v (k : Nat) (b : Bool) (s : State) : (setHostKey k b s).v = s.v := rfl
@[simp] theorem setHostKey_index (k : Nat) (b : Bool) (s : State) : (setHostKey k b s).index = s.index := rfl
@[simp] theorem setHostKey_pc (k : Nat) (b : Bool) (s : State) : (setHostKey k b s).pc = s.pc := rfl
@[simp] theorem setHostKey_stack (k : Nat) (b : Bool) (s : State) : (setHostKey k b s).stack = s.stack := rfl
@[simp] theorem setHostKey_dt (k : Nat) (b : Bool) (s : State) : (setHostKey k b s).dt = s.dt := rfl
@[simp] theorem setHostKey_st (k : Nat) (b : Bool) (s : State) : (setHostKey k b s).st = s.st := rfl
@[simp] theorem setHostKey_disp (k : Nat) (b : Bool) (s : State) : (setHostKey k b s).disp = s.disp := rfl
@[simp] theorem setHostKey_hostKey (k : Nat) (b : Bool) (s : State) : (setHostKey k b s).hostKey = if h : k < 16 then s.hostKey.set k b else s.hostKey := rfl
@[simp] theorem setHostKey_keyPrev (k : Nat) (b : Bool) (s : State) : (setHostKey k b s).keyPrev = s.keyPrev := rfl
@[simp] theorem setHostKey_runState (k : Nat) (b : Bool) (s : State) : (setHostKey k b s).runState = s.runState := rfl
@[simp] theorem setHostKey_faultCause (k : Nat) (b : Bool) (s : State) : (setHostKey k b s).faultCause = s.faultCause := rfl
@[simp] theorem setHostKey_faultPc (k : Nat) (b : Bool) (s : State) : (setHostKey k b s).faultPc = s.faultPc := rfl
@[simp] theorem setHostKey_faultOpcode (k : Nat) (b : Bool) (s : State) : (setHostKey k b s).faultOpcode = s.faultOpcode := rfl
@[simp] theorem setHostKey_faultOpcodeValid (k : Nat) (b : Bool) (s : State) : (setHostKey k b s).faultOpcodeValid = s.faultOpcodeValid := rfl
@[simp] theorem setHostKey_faultInfo (k : Nat) (b : Bool) (s : State) : (setHostKey k b s).faultInfo = s.faultInfo := rfl
@[simp] theorem setHostKey_loaded (k : Nat) (b : Bool) (s : State) : (setHostKey k b s).loaded = s.loaded := rfl
@[simp] theorem setHostKey_draws (k : Nat) (b : Bool) (s : State) : (setHostKey k b s).draws = s.draws := rfl
@[simp] theorem setHostKey_inputs (k : Nat) (b : Bool) (s : State) : (setHostKey k b s).inputs = s.inputs := rfl
@[simp] theorem setHostKey_outputs (k : Nat) (b : Bool) (s : State) : (setHostKey k b s).outputs = s.outputs := rfl

/-! countDraw -/

@[simp] theorem countDraw_params (s : State) : (countDraw s).params = s.params := rfl
@[simp] theorem countDraw_mem (s : State) : (countDraw s).mem = s.mem := rfl
@[simp] theorem countDraw_v (s : State) : (countDraw s).v = s.v := rfl
@[simp] theorem countDraw_index (s : State) : (countDraw s).index = s.index := rfl
@[simp] theorem countDraw_pc (s : State) : (countDraw s).pc = s.pc := rfl
@[simp] theorem countDraw_stack (s : State) : (countDraw s).stack = s.stack := rfl
@[simp] theorem countDraw_dt (s : State) : (countDraw s).dt = s.dt := rfl
@[simp] theorem countDraw_st (s : State) : (countDraw s).st = s.st := rfl
@[simp] theorem countDraw_disp (s : State) : (countDraw s).disp = s.disp := rfl
@[simp] theorem countDraw_hostKey (s : State) : (countDraw s).hostKey = s.hostKey := rfl
@[simp] theorem countDraw_keyPrev (s : State) : (countDraw s).keyPrev = s.keyPrev := rfl
@[simp] theorem countDraw_runState (s : State) : (countDraw s).runState = s.runState := rfl
@[simp] theorem countDraw_faultCause (s : State) : (countDraw s).faultCause = s.faultCause := rfl
@[simp] theorem countDraw_faultPc (s : State) : (countDraw s).faultPc = s.faultPc := rfl
@[simp] theorem countDraw_faultOpcode (s : State) : (countDraw s).faultOpcode = s.faultOpcode := rfl
@[simp] theorem countDraw_faultOpcodeValid (s : State) : (countDraw s).faultOpcodeValid = s.faultOpcodeValid := rfl
@[simp] theorem countDraw_faultInfo (s : State) : (countDraw s).faultInfo = s.faultInfo := rfl
@[simp] theorem countDraw_loaded (s : State) : (countDraw s).loaded = s.loaded := rfl
@[simp] theorem countDraw_draws (s : State) : (countDraw s).draws = s.draws + 1 := rfl
@[simp] theorem countDraw_inputs (s : State) : (countDraw s).inputs = s.inputs := rfl
@[simp] theorem countDraw_outputs (s : State) : (countDraw s).outputs = s.outputs := rfl

/-! advance -/

@[simp] theorem advance_params (s : State) : (advance s).params = s.params := rfl
@[simp] theorem advance_mem (s : State) : (advance s).mem = s.mem := rfl
@[simp] theorem advance_v (s : State) : (advance s).v = s.v := rfl
@[simp] theorem advance_index (s : State) : (advance s).index = s.index := rfl
@[simp] theorem advance_pc (s : State) : (advance s).pc = s.pc + 2 := rfl
@[simp] theorem advance_stack (s : State) : (advance s).stack = s.stack := rfl
@[simp] theorem advance_dt (s : State) : (advance s).dt = s.dt := rfl
@[simp] theorem advance_st (s : State) : (advance s).st = s.st := rfl
@[simp] theorem advance_disp (s : State) : (advance s).disp = s.disp := rfl
@[simp] theorem advance_hostKey (s : State) : (advance s).hostKey = s.hostKey := rfl
@[simp] theorem advance_keyPrev (s : State) : (advance s).keyPrev = s.keyPrev := rfl
@[simp] theorem advance_runState (s : State) : (advance s).runState = s.runState := rfl
@[simp] theorem advance_faultCause (s : State) : (advance s).faultCause = s.faultCause := rfl
@[simp] theorem advance_faultPc (s : State) : (advance s).faultPc = s.faultPc := rfl
@[simp] theorem advance_faultOpcode (s : State) : (advance s).faultOpcode = s.faultOpcode := rfl
@[simp] theorem advance_faultOpcodeValid (s : State) : (advance s).faultOpcodeValid = s.faultOpcodeValid := rfl
@[simp] theorem advance_faultInfo (s : State) : (advance s).faultInfo = s.faultInfo := rfl
@[simp] theorem advance_loaded (s : State) : (advance s).loaded = s.loaded := rfl
@[simp] theorem advance_draws (s : State) : (advance s).draws = s.draws := rfl
@[simp] theorem advance_inputs (s : State) : (advance s).inputs = s.inputs := rfl
@[simp] theorem advance_outputs (s : State) : (advance s).outputs = s.outputs := rfl

/-! retire -/

@[simp] theorem retire_params (s : State) : (retire s).params = s.params := rfl
@[simp] theorem retire_mem (s : State) : (retire s).mem = s.mem := rfl
@[simp] theorem retire_v (s : State) : (retire s).v = s.v := rfl
@[simp] theorem retire_index (s : State) : (retire s).index = s.index := rfl
@[simp] theorem retire_pc (s : State) : (retire s).pc = s.pc := rfl
@[simp] theorem retire_stack (s : State) : (retire s).stack = s.stack := rfl
@[simp] theorem retire_dt (s : State) : (retire s).dt = s.dt := rfl
@[simp] theorem retire_st (s : State) : (retire s).st = s.st := rfl
@[simp] theorem retire_disp (s : State) : (retire s).disp = s.disp := rfl
@[simp] theorem retire_hostKey (s : State) : (retire s).hostKey = s.hostKey := rfl
@[simp] theorem retire_keyPrev (s : State) : (retire s).keyPrev = s.hostKey := rfl
@[simp] theorem retire_runState (s : State) : (retire s).runState = s.runState := rfl
@[simp] theorem retire_faultCause (s : State) : (retire s).faultCause = s.faultCause := rfl
@[simp] theorem retire_faultPc (s : State) : (retire s).faultPc = s.faultPc := rfl
@[simp] theorem retire_faultOpcode (s : State) : (retire s).faultOpcode = s.faultOpcode := rfl
@[simp] theorem retire_faultOpcodeValid (s : State) : (retire s).faultOpcodeValid = s.faultOpcodeValid := rfl
@[simp] theorem retire_faultInfo (s : State) : (retire s).faultInfo = s.faultInfo := rfl
@[simp] theorem retire_loaded (s : State) : (retire s).loaded = s.loaded := rfl
@[simp] theorem retire_draws (s : State) : (retire s).draws = s.draws := rfl
@[simp] theorem retire_inputs (s : State) : (retire s).inputs = s.inputs := rfl
@[simp] theorem retire_outputs (s : State) : (retire s).outputs = s.outputs := rfl

/-! takeFault -/

@[simp] theorem takeFault_params (f : Fault) (info : Nat) (op : Option Word) (s : State) : (takeFault f info op s).params = s.params := rfl
@[simp] theorem takeFault_mem (f : Fault) (info : Nat) (op : Option Word) (s : State) : (takeFault f info op s).mem = s.mem := rfl
@[simp] theorem takeFault_v (f : Fault) (info : Nat) (op : Option Word) (s : State) : (takeFault f info op s).v = s.v := rfl
@[simp] theorem takeFault_index (f : Fault) (info : Nat) (op : Option Word) (s : State) : (takeFault f info op s).index = s.index := rfl
@[simp] theorem takeFault_pc (f : Fault) (info : Nat) (op : Option Word) (s : State) : (takeFault f info op s).pc = s.pc := rfl
@[simp] theorem takeFault_stack (f : Fault) (info : Nat) (op : Option Word) (s : State) : (takeFault f info op s).stack = s.stack := rfl
@[simp] theorem takeFault_dt (f : Fault) (info : Nat) (op : Option Word) (s : State) : (takeFault f info op s).dt = s.dt := rfl
@[simp] theorem takeFault_st (f : Fault) (info : Nat) (op : Option Word) (s : State) : (takeFault f info op s).st = s.st := rfl
@[simp] theorem takeFault_disp (f : Fault) (info : Nat) (op : Option Word) (s : State) : (takeFault f info op s).disp = s.disp := rfl
@[simp] theorem takeFault_hostKey (f : Fault) (info : Nat) (op : Option Word) (s : State) : (takeFault f info op s).hostKey = s.hostKey := rfl
@[simp] theorem takeFault_keyPrev (f : Fault) (info : Nat) (op : Option Word) (s : State) : (takeFault f info op s).keyPrev = s.keyPrev := rfl
@[simp] theorem takeFault_runState (f : Fault) (info : Nat) (op : Option Word) (s : State) : (takeFault f info op s).runState = .faulted := rfl
@[simp] theorem takeFault_faultCause (f : Fault) (info : Nat) (op : Option Word) (s : State) : (takeFault f info op s).faultCause = some f := rfl
@[simp] theorem takeFault_faultPc (f : Fault) (info : Nat) (op : Option Word) (s : State) : (takeFault f info op s).faultPc = s.pc := rfl
@[simp] theorem takeFault_faultOpcode (f : Fault) (info : Nat) (op : Option Word) (s : State) : (takeFault f info op s).faultOpcode = op.getD 0 := rfl
@[simp] theorem takeFault_faultOpcodeValid (f : Fault) (info : Nat) (op : Option Word) (s : State) : (takeFault f info op s).faultOpcodeValid = op.isSome := rfl
@[simp] theorem takeFault_faultInfo (f : Fault) (info : Nat) (op : Option Word) (s : State) : (takeFault f info op s).faultInfo = BitVec.ofNat 17 info := rfl
@[simp] theorem takeFault_loaded (f : Fault) (info : Nat) (op : Option Word) (s : State) : (takeFault f info op s).loaded = s.loaded := rfl
@[simp] theorem takeFault_draws (f : Fault) (info : Nat) (op : Option Word) (s : State) : (takeFault f info op s).draws = s.draws := rfl
@[simp] theorem takeFault_inputs (f : Fault) (info : Nat) (op : Option Word) (s : State) : (takeFault f info op s).inputs = s.inputs := rfl
@[simp] theorem takeFault_outputs (f : Fault) (info : Nat) (op : Option Word) (s : State) : (takeFault f info op s).outputs = s.outputs := rfl

end Sys2Proof.Machine
end

