-- ==== Sys2Proof/Laws/Display.lean ====
section
/-!
SUPPORT. The display: what flipping a pixel and drawing a list of pixels do.
-/

namespace Sys2Proof.Machine

@[simp] theorem pixelAt_blank (x y : Nat) : pixelAt blankDisplay x y = false := by
  simp only [pixelAt, blankDisplay]
  split <;> simp

/-- R171: a flip changes one pixel of the grid. -/
theorem pixelAt_flipPixel (d : Display) (a b x y : Nat) (h : a < 64 ∧ b < 32) :
    pixelAt (flipPixel d a b) x y = if x = a ∧ y = b then !pixelAt d x y else pixelAt d x y := by
  simp only [pixelAt, flipPixel, dif_pos h]
  by_cases hxy : x < 64 ∧ y < 32
  · simp only [dif_pos hxy, Vector.getElem_set]
    by_cases hx : a = x
    · subst hx
      simp only [if_true, Vector.getElem_set]
      by_cases hy : b = y
      · subst hy; simp
      · simp [hy, Ne.symm hy]
    · simp [hx, Ne.symm hx]
  · simp only [dif_neg hxy]
    split
    · omega
    · rfl

/-- Two displays are equal when every pixel of the grid is. -/
theorem display_ext {d e : Display} (h : ∀ x y, x < 64 → y < 32 → pixelAt d x y = pixelAt e x y) : d = e := by
  apply Vector.ext
  intro x hx
  apply Vector.ext
  intro y hy
  have := h x y hx hy
  simpa [pixelAt, hx, hy] using this

/-- Drawing a list of distinct pixels of the grid flips exactly them. -/
theorem pixelAt_drawPixels {l : List (Nat × Nat)} {d : Display} {hit : Bool} (hn : l.Nodup)
    (hg : ∀ p ∈ l, p.1 < 64 ∧ p.2 < 32) (x y : Nat) :
    pixelAt (drawPixels l (d, hit)).1 x y = (pixelAt d x y ^^ decide ((x, y) ∈ l)) := by
  induction l generalizing d hit with
  | nil => simp [drawPixels]
  | cons p rest ih =>
    obtain ⟨a, b⟩ := p
    obtain ⟨hp, hr⟩ := List.nodup_cons.1 hn
    have hab := hg (a, b) (by simp)
    rw [drawPixels, ih hr fun q hq => hg q (by simp [hq]), pixelAt_flipPixel _ _ _ _ _ hab]
    by_cases he : x = a ∧ y = b
    · obtain ⟨rfl, rfl⟩ := he
      simp [hp]
    · have : (x, y) ≠ (a, b) := by simpa using he
      simp [he]

/-- Drawing a list of distinct pixels collides exactly when one of them was on. -/
theorem hit_drawPixels {l : List (Nat × Nat)} {d : Display} {hit : Bool} (hn : l.Nodup)
    (hg : ∀ p ∈ l, p.1 < 64 ∧ p.2 < 32) :
    (drawPixels l (d, hit)).2 = (hit || l.any fun p => pixelAt d p.1 p.2) := by
  induction l generalizing d hit with
  | nil => simp [drawPixels]
  | cons p rest ih =>
    obtain ⟨a, b⟩ := p
    obtain ⟨hp, hr⟩ := List.nodup_cons.1 hn
    have hab := hg (a, b) (by simp)
    rw [drawPixels, ih hr fun q hq => hg q (by simp [hq]), List.any_cons, Bool.or_assoc]
    congr 2
    rw [Bool.eq_iff_iff, List.any_eq_true, List.any_eq_true]
    refine exists_congr fun q => and_congr_right fun hq => ?_
    have : ¬ (q.1 = a ∧ q.2 = b) := by
      rintro ⟨h1, h2⟩
      exact hp (by rw [← h1, ← h2]; exact hq)
    rw [pixelAt_flipPixel _ _ _ _ _ hab, if_neg this]

theorem mem_rowPixels {x0 y : Nat} {b : Byte} {p : Nat × Nat} :
    p ∈ rowPixels x0 y b ↔ ∃ c, c < 8 ∧ x0 + c < 64 ∧ b.getLsbD (7 - c) = true ∧ p = (x0 + c, y) := by
  simp only [rowPixels, List.mem_filterMap, List.mem_range]
  constructor
  · rintro ⟨c, hc, h⟩
    split at h
    · rename_i hv; exact ⟨c, hc, hv.1, hv.2, by simpa using h.symm⟩
    · simp at h
  · rintro ⟨c, hc, h1, h2, rfl⟩
    exact ⟨c, hc, by simp [h1, h2]⟩

/-- R171, R172: a pixel is flipped when it is visible and its bit of its row's byte is 1. -/
theorem mem_spritePixels {x0 y : Nat} {l : List Byte} {p : Nat × Nat} :
    p ∈ spritePixels x0 y l ↔ ∃ r c, ∃ hr : r < l.length, c < 8 ∧ x0 + c < 64 ∧ y + r < 32 ∧
      l[r].getLsbD (7 - c) = true ∧ p = (x0 + c, y + r) := by
  induction l generalizing y with
  | nil => simp [spritePixels]
  | cons b rest ih =>
    rw [spritePixels, List.mem_append, ih]
    constructor
    · rintro (h | ⟨r, c, hr, h1, h2, h3, h4, h5⟩)
      · split at h
        · obtain ⟨c, h1, h2, h3, h4⟩ := mem_rowPixels.1 h
          exact ⟨0, c, by simp, h1, h2, by omega, by simpa using h3, by simpa using h4⟩
        · simp at h
      · exact ⟨r + 1, c, by simpa using hr, h1, h2, by omega, by simpa using h4, by rw [h5, Nat.add_assoc, Nat.add_comm 1 r]⟩
    · rintro ⟨r, c, hr, h1, h2, h3, h4, h5⟩
      cases r with
      | zero =>
        left
        rw [if_pos (by omega)]
        exact mem_rowPixels.2 ⟨c, h1, h2, by simpa using h4, by simpa using h5⟩
      | succ n =>
        right
        exact ⟨n, c, by simpa using hr, h1, h2, by omega, by simpa using h4, by rw [h5, Nat.add_assoc, Nat.add_comm 1 n]⟩

theorem spritePixels_grid {x0 y : Nat} {l : List Byte} {p : Nat × Nat} (h : p ∈ spritePixels x0 y l) :
    p.1 < 64 ∧ p.2 < 32 := by
  obtain ⟨r, c, -, -, h1, h2, -, rfl⟩ := mem_spritePixels.1 h
  exact ⟨h1, h2⟩

theorem rowPixels_nodup (x0 y : Nat) (b : Byte) : (rowPixels x0 y b).Nodup := by
  apply List.Nodup.filterMap _ List.nodup_range
  intro c e p hc he
  simp only [Option.mem_def] at hc he
  split at hc <;> split at he <;> simp at hc he
  have := hc.trans he.symm
  simp at this
  omega

theorem spritePixels_nodup (x0 y : Nat) (l : List Byte) : (spritePixels x0 y l).Nodup := by
  induction l generalizing y with
  | nil => simp [spritePixels]
  | cons b rest ih =>
    rw [spritePixels]
    refine List.Nodup.append ?_ (ih (y + 1)) ?_
    · split
      · exact rowPixels_nodup _ _ _
      · simp
    · intro p hp hq
      split at hp
      · obtain ⟨c, -, -, -, rfl⟩ := mem_rowPixels.1 hp
        obtain ⟨r, e, -, -, -, -, -, h⟩ := mem_spritePixels.1 hq
        simp at h
        omega
      · simp at hp

/-! The pixels of DXYN (R171, R172). -/

theorem drawTargets_grid {x y n : Nibble} {s : State} : ∀ p ∈ drawTargets x y n s, p.1 < 64 ∧ p.2 < 32 :=
  fun _ => spritePixels_grid

theorem drawTargets_nodup (x y n : Nibble) (s : State) : (drawTargets x y n s).Nodup := spritePixels_nodup _ _ _

/-- The pixels a draw flips: visible, in row r and column c of the sprite, their bit 1. -/
theorem mem_drawTargets {x y n : Nibble} {s : State} {px py : Nat} :
    (px, py) ∈ drawTargets x y n s ↔ ∃ r c, r < n.toNat ∧ c < 8 ∧ px < 64 ∧ py < 32 ∧
      px = (reg s x).toNat % 64 + c ∧ py = (reg s y).toNat % 32 + r ∧
      (readByte s (s.index.toNat + r)).getLsbD (7 - c) = true := by
  rw [drawTargets, mem_spritePixels]
  constructor
  · rintro ⟨r, c, hr, h1, h2, h3, h4, h5⟩
    simp only [Prod.mk.injEq] at h5
    simp only [bytesAtIndex, List.length_map, List.length_range] at hr
    exact ⟨r, c, hr, h1, by omega, by omega, h5.1, h5.2, by simpa [bytesAtIndex, effAddr] using h4⟩
  · rintro ⟨r, c, hr, h1, h2, h3, rfl, rfl, h4⟩
    exact ⟨r, c, by simpa [bytesAtIndex] using hr, h1, h2, h3, by simpa [bytesAtIndex, effAddr] using h4, rfl⟩

end Sys2Proof.Machine
end

