-- ==== Sys2Proof/Laws/Memory.lean ====
section
/-!
SUPPORT. Memory: a read after a write, what a write leaves alone, and that every memory operation keeps the canonical form.
-/

namespace Sys2Proof.Machine

theorem lookupCell_none_of_lt {a : Nat} {m : Memory} (h : ∀ c ∈ m, a < c.1) : lookupCell a m = none := by
  induction m with
  | nil => rfl
  | cons c rest ih =>
    have hc := h c (by simp)
    simp only [lookupCell]
    rw [if_neg (by omega), ih fun e he => h e (by simp [he])]

theorem fst_mem_writeCell {d : Byte} {a : Nat} {x : Byte} {m : Memory} {c : Host.Cell} (h : c ∈ writeCell d a x m) :
    c = (a, x) ∧ x ≠ d ∨ c ∈ m := by
  induction m with
  | nil =>
    simp only [writeCell] at h
    split at h <;> simp_all
  | cons e rest ih =>
    simp only [writeCell] at h
    split at h
    · split at h <;> simp_all
    · split at h
      · split at h
        · exact .inr (by simp [h])
        · rcases List.mem_cons.1 h with h | h
          · exact .inl ⟨h, ‹_›⟩
          · exact .inr (by simp [h])
      · rcases List.mem_cons.1 h with h | h
        · exact .inr (by simp [h])
        · rcases ih h with h | h
          · exact .inl h
          · exact .inr (by simp [h])

/-- A cell of the written address is gone from the list unless the written byte is listed. -/
theorem lookup_writeCell {d : Byte} {a : Nat} {x : Byte} {m : Memory}
    (hm : m.Pairwise fun c e => c.1 < e.1) (b : Nat) :
    (lookupCell b (writeCell d a x m)).getD d = if b = a then x else (lookupCell b m).getD d := by
  induction m with
  | nil =>
    simp only [writeCell, lookupCell]
    split <;> rename_i hx
    · subst hx; simp [lookupCell]
    · simp only [lookupCell]; split <;> rfl
  | cons e rest ih =>
    obtain ⟨he, hr⟩ := List.pairwise_cons.1 hm
    have ih := ih hr
    obtain ⟨k, y⟩ := e
    simp only [writeCell]
    split
    · rename_i hak
      split <;> rename_i hx
      · subst hx
        split <;> rename_i hb
        · subst hb
          have : lookupCell b ((k, y) :: rest) = none :=
            lookupCell_none_of_lt (by intro c hc; rcases List.mem_cons.1 hc with rfl | hc; exact hak; exact Nat.lt_trans hak (he c hc))
          rw [this]; rfl
        · rfl
      · simp only [lookupCell]
        split <;> rename_i hb
        · rfl
        · simp
    · split <;> rename_i hak
      · subst hak
        split <;> rename_i hx
        · subst hx
          split <;> rename_i hb
          · subst hb
            rw [lookupCell_none_of_lt he]; rfl
          · simp [lookupCell, hb]
        · simp only [lookupCell]
          split <;> simp
      · simp only [lookupCell]
        split <;> rename_i hb
        · rw [if_neg (by omega)]
        · exact ih

/-- Without a canonical list, a write still leaves every other address alone. -/
theorem lookup_writeCell_ne {d : Byte} {a : Nat} {x : Byte} {m : Memory} {b : Nat} (h : b ≠ a) :
    lookupCell b (writeCell d a x m) = lookupCell b m := by
  induction m with
  | nil =>
    simp only [writeCell]
    split <;> simp [lookupCell, h]
  | cons e rest ih =>
    simp only [writeCell]
    split
    · split <;> simp [lookupCell, h]
    · split <;> rename_i hak
      · split <;> simp [lookupCell, ← hak, h]
      · simp [lookupCell, ih]

theorem writeCell_wf {p : Params} {a : Nat} {x : Byte} {m : Memory} (hm : Memory.wf p m) (ha : a < memSize) :
    Memory.wf p (writeCell (resetByte p a) a x m) := by
  refine ⟨?_, fun c hc => ?_⟩
  · obtain ⟨hs, -⟩ := hm
    induction m with
    | nil => simp only [writeCell]; split <;> simp
    | cons e rest ih =>
      obtain ⟨he, hr⟩ := List.pairwise_cons.1 hs
      simp only [writeCell]
      split
      · split
        · exact hs
        · refine List.pairwise_cons.2 ⟨fun c hc => ?_, hs⟩
          rcases List.mem_cons.1 hc with rfl | hc
          · assumption
          · exact Nat.lt_trans ‹_› (he c hc)
      · split
        · split
          · exact hr
          · subst ‹a = _›
            exact List.pairwise_cons.2 ⟨he, hr⟩
        · refine List.pairwise_cons.2 ⟨fun c hc => ?_, ih hr⟩
          rcases fst_mem_writeCell hc with ⟨rfl, -⟩ | hc
          · simp only; omega
          · exact he c hc
  · rcases fst_mem_writeCell hc with ⟨rfl, hx⟩ | hc
    · exact ⟨ha, hx⟩
    · exact hm.2 c hc

/-! The state's memory operations. -/

theorem readByte_congr {s t : State} (hm : t.mem = s.mem) (hp : t.params = s.params) (a : Nat) :
    readByte t a = readByte s a := by
  simp [readByte, hm, hp]

/-! The updates that leave memory alone. -/

@[simp] theorem readByte_setIndexReg (w : Word) (s : State) (a : Nat) : readByte (setIndexReg w s) a = readByte s a := rfl
@[simp] theorem readByte_setPc (w : Word) (s : State) (a : Nat) : readByte (setPc w s) a = readByte s a := rfl
@[simp] theorem readByte_setDelayTimer (v : Byte) (s : State) (a : Nat) : readByte (setDelayTimer v s) a = readByte s a := rfl
@[simp] theorem readByte_setSoundTimer (v : Byte) (s : State) (a : Nat) : readByte (setSoundTimer v s) a = readByte s a := rfl
@[simp] theorem readByte_setStack (l : List Word) (s : State) (a : Nat) : readByte (setStack l s) a = readByte s a := rfl
@[simp] theorem readByte_setDisp (d : Display) (s : State) (a : Nat) : readByte (setDisp d s) a = readByte s a := rfl
@[simp] theorem readByte_countDraw (s : State) (a : Nat) : readByte (countDraw s) a = readByte s a := rfl
@[simp] theorem readByte_advance (s : State) (a : Nat) : readByte (advance s) a = readByte s a := rfl
@[simp] theorem readByte_retire (s : State) (a : Nat) : readByte (retire s) a = readByte s a := rfl
@[simp] theorem readByte_setReg (x : Nibble) (v : Byte) (s : State) (a : Nat) : readByte (setReg x v s) a = readByte s a := rfl

theorem readByte_writeByte_same {s : State} (hm : Memory.wf s.params s.mem) (a : Nat) (x : Byte) :
    readByte (writeByte a x s) a = x := by
  have h := lookup_writeCell (d := resetByte s.params a) (a := a) (x := x) hm.1 a
  rw [if_pos rfl] at h
  exact h

theorem readByte_writeByte_ne {s : State} {a b : Nat} {x : Byte} (h : b ≠ a) :
    readByte (writeByte a x s) b = readByte s b := by
  simp [readByte, lookup_writeCell_ne h]

theorem writeByte_wf {s : State} {a : Nat} {x : Byte} (hm : Memory.wf s.params s.mem) (ha : a < memSize) :
    Memory.wf (writeByte a x s).params (writeByte a x s).mem := by
  simpa using writeCell_wf hm ha

/-- What a write of bytes can do: memory changes, nothing else. -/
theorem writeBytes_eq (a : Nat) (l : List Byte) (s : State) :
    writeBytes a l s = { s with mem := (writeBytes a l s).mem } := by
  induction l generalizing a s with
  | nil => rfl
  | cons x rest ih => rw [writeBytes, ih]; rfl

theorem writeBytes_wf {a : Nat} {l : List Byte} {s : State} (hm : Memory.wf s.params s.mem) (ha : a + l.length ≤ memSize) :
    Memory.wf s.params (writeBytes a l s).mem := by
  induction l generalizing a s with
  | nil => exact hm
  | cons x rest ih =>
    simp only [List.length_cons] at ha
    have h1 : Memory.wf (writeByte a x s).params (writeByte a x s).mem := writeByte_wf hm (by omega)
    exact ih (s := writeByte a x s) (a := a + 1) h1 (by omega)

/-- Every byte outside the written ones reads as before. -/
theorem readByte_writeBytes_outside {a : Nat} {l : List Byte} {s : State} {b : Nat} (h : b < a ∨ a + l.length ≤ b) :
    readByte (writeBytes a l s) b = readByte s b := by
  induction l generalizing a s with
  | nil => rfl
  | cons x rest ih =>
    simp only [List.length_cons] at h
    rw [writeBytes, ih (by omega), readByte_writeByte_ne (by omega)]

/-- Every written byte reads back. -/
theorem readByte_writeBytes {a : Nat} {l : List Byte} {s : State} (hm : Memory.wf s.params s.mem)
    (ha : a + l.length ≤ memSize) (k : Nat) (hk : k < l.length) :
    readByte (writeBytes a l s) (a + k) = l[k] := by
  induction l generalizing a s k with
  | nil => simp at hk
  | cons x rest ih =>
    simp only [List.length_cons] at ha
    rw [writeBytes]
    cases k with
    | zero =>
      rw [readByte_writeBytes_outside (by omega)]
      simpa using readByte_writeByte_same hm a x
    | succ n =>
      have h1 : Memory.wf (writeByte a x s).params (writeByte a x s).mem := writeByte_wf hm (by omega)
      have := ih (s := writeByte a x s) (a := a + 1) h1 (by omega) n (by simpa using hk)
      simpa [Nat.add_assoc, Nat.add_comm 1 n] using this

theorem reset_memory_wf (p : Params) : Memory.wf (State.resetWith p).params (State.resetWith p).mem := by
  simp [State.resetWith, Memory.wf]

/-! The bounds check (R52). -/

/-- What the check answers: none exactly when every byte of the access is inside memory. -/
theorem accessFault_eq_none {s : State} {n : Nat} :
    accessFault s n = none ↔ n = 0 ∨ s.index.toNat + n ≤ 4096 := by
  unfold accessFault effAddr memSize
  by_cases h : 0 < n ∧ 4096 ≤ s.index.toNat + (n - 1)
  · rw [if_pos h]; exact ⟨nofun, fun e => by omega⟩
  · rw [if_neg h]; exact ⟨fun _ => by omega, fun _ => rfl⟩

/-- What it answers otherwise: the first address of the access that is outside. -/
theorem accessFault_eq_some {s : State} {n a : Nat} :
    accessFault s n = some a ↔ 0 < n ∧ 4096 < s.index.toNat + n ∧ a = max s.index.toNat 4096 := by
  unfold accessFault effAddr memSize
  by_cases h : 0 < n ∧ 4096 ≤ s.index.toNat + (n - 1)
  · rw [if_pos h, Option.some.injEq]; exact ⟨fun e => ⟨h.1, by omega, e.symm⟩, fun e => e.2.2.symm⟩
  · rw [if_neg h]; exact ⟨nofun, fun e => by omega⟩

/-- With nothing listed, every address reads as its reset contents (R241). -/
theorem readByte_of_mem_nil {s : State} (h : s.mem = []) (a : Nat) : readByte s a = resetByte s.params a := by
  simp [readByte, h, lookupCell]

/-- A write of bytes writes the same cells in two states with the same memory. -/
theorem writeBytes_mem_congr (a : Nat) (l : List Byte) {s t : State} (hm : t.mem = s.mem) (hp : t.params = s.params) :
    (writeBytes a l t).mem = (writeBytes a l s).mem := by
  induction l generalizing a s t with
  | nil => exact hm
  | cons x rest ih => exact ih (a + 1) (by simp [writeByte, hm, hp]) hp

end Sys2Proof.Machine
end

