-- ==== Sys2Proof/Laws/Registers.lean ====
section
/-!
SUPPORT. The registers: a read after a write, register ranges, and the arithmetic of Flags as bit-vector operations.
-/

namespace Sys2Proof.Machine

theorem reg_congr {s t : State} (h : t.v = s.v) (x : Nibble) : reg t x = reg s x := by simp [reg, h]

/-- R21: register x is one cell. -/
@[simp] theorem reg_setReg (x y : Nibble) (b : Byte) (s : State) :
    reg (setReg x b s) y = if y = x then b else reg s y := by
  simp only [reg, setReg_v, Vector.getElem_set]
  by_cases h : y = x
  · simp [h]
  · rw [if_neg (fun e => h (BitVec.eq_of_toNat_eq e.symm)), if_neg h]

/-! The updates that leave V alone. -/

@[simp] theorem reg_setIndexReg (w : Word) (s : State) (y : Nibble) : reg (setIndexReg w s) y = reg s y := rfl
@[simp] theorem reg_setPc (w : Word) (s : State) (y : Nibble) : reg (setPc w s) y = reg s y := rfl
@[simp] theorem reg_setDelayTimer (b : Byte) (s : State) (y : Nibble) : reg (setDelayTimer b s) y = reg s y := rfl
@[simp] theorem reg_setSoundTimer (b : Byte) (s : State) (y : Nibble) : reg (setSoundTimer b s) y = reg s y := rfl
@[simp] theorem reg_setStack (l : List Word) (s : State) (y : Nibble) : reg (setStack l s) y = reg s y := rfl
@[simp] theorem reg_setDisp (d : Display) (s : State) (y : Nibble) : reg (setDisp d s) y = reg s y := rfl
@[simp] theorem reg_countDraw (s : State) (y : Nibble) : reg (countDraw s) y = reg s y := rfl
@[simp] theorem reg_advance (s : State) (y : Nibble) : reg (advance s) y = reg s y := rfl
@[simp] theorem reg_retire (s : State) (y : Nibble) : reg (retire s) y = reg s y := rfl
@[simp] theorem reg_writeByte (a : Nat) (x : Byte) (s : State) (y : Nibble) : reg (writeByte a x s) y = reg s y := rfl

@[simp] theorem reg_writeResultThenFlag (x y : Nibble) (r : Byte) (f : Bool) (s : State) :
    reg (writeResultThenFlag x r f s) y = if y = vf then flagByte f else if y = x then r else reg s y := by
  simp [writeResultThenFlag]

@[simp] theorem reg_writeFlagThenResult (x y : Nibble) (r : Byte) (f : Bool) (s : State) :
    reg (writeFlagThenResult x r f s) y = if y = x then r else if y = vf then flagByte f else reg s y := by
  simp [writeFlagThenResult]

/-- What writing a range of registers can do: V changes, nothing else. -/
theorem setRegsFrom_eq (k : Nat) (l : List Byte) (s : State) :
    setRegsFrom k l s = { s with v := (setRegsFrom k l s).v } := by
  induction l generalizing k s with
  | nil => rfl
  | cons b rest ih => rw [setRegsFrom, ih]; rfl

/-- Writing a range of registers writes the same values in two states with the same V. -/
theorem setRegsFrom_v_congr (k : Nat) (l : List Byte) {s t : State} (h : t.v = s.v) :
    (setRegsFrom k l t).v = (setRegsFrom k l s).v := by
  induction l generalizing k s t with
  | nil => exact h
  | cons b rest ih => exact ih (k + 1) (by simp [h])

/-- R155: register y of the range takes its byte, every other is unchanged. -/
theorem reg_setRegsFrom (k : Nat) (l : List Byte) (s : State) (y : Nibble) (h : k + l.length ≤ 16) :
    reg (setRegsFrom k l s) y = if k ≤ y.toNat then l.getD (y.toNat - k) (reg s y) else reg s y := by
  induction l generalizing k s with
  | nil => simp [setRegsFrom]
  | cons b rest ih =>
    simp only [List.length_cons] at h
    rw [setRegsFrom, ih (k + 1) _ (by omega), reg_setReg]
    have hk : (y = BitVec.ofNat 4 k) ↔ y.toNat = k := by
      rw [← BitVec.toNat_inj, BitVec.toNat_ofNat, Nat.mod_eq_of_lt (by omega)]
    simp only [hk]
    by_cases h1 : k + 1 ≤ y.toNat
    · obtain ⟨n, hn⟩ : ∃ n, y.toNat - k = n + 1 := ⟨y.toNat - k - 1, by omega⟩
      rw [if_pos h1, if_neg (by omega), if_pos (by omega), hn, show y.toNat - (k + 1) = n by omega]
      rfl
    · rw [if_neg h1]
      by_cases h2 : y.toNat = k
      · simp [h2]
      · rw [if_neg h2, if_neg (by omega)]

theorem length_regRange (s : State) (x : Nibble) : (regRange s x).length = x.toNat + 1 := by
  have := x.isLt
  simp [regRange, rangeCount]
  omega

/-- R154: the k-th byte of the range is V[k]. -/
theorem getElem_regRange (s : State) (x : Nibble) (k : Nat) (h : k < (regRange s x).length) :
    (regRange s x)[k] = reg s (BitVec.ofNat 4 k) := by
  have h16 : k < 16 := by have := x.isLt; rw [length_regRange] at h; omega
  have hk : k % 16 = k := by omega
  simp [regRange, reg, hk]

/-! The arithmetic of R132. -/

@[simp] theorem sumByte_eq (a b : Byte) : sumByte a b = a + b := by
  apply BitVec.eq_of_toNat_eq
  simp [sumByte]

@[simp] theorem diffByte_eq (a b : Byte) : diffByte a b = a - b := by
  apply BitVec.eq_of_toNat_eq
  have := a.isLt; have := b.isLt
  simp [diffByte, BitVec.toNat_sub]
  omega

@[simp] theorem shrByte_eq (a : Byte) : shrByte a = a >>> 1 := by
  apply BitVec.eq_of_toNat_eq
  have := a.isLt
  simp [shrByte, Nat.shiftRight_eq_div_pow]
  omega

@[simp] theorem shlByte_eq (a : Byte) : shlByte a = a <<< 1 := by
  apply BitVec.eq_of_toNat_eq
  simp [shlByte, Nat.shiftLeft_eq, Nat.mul_comm]

@[simp] theorem indexSum_eq (i : Word) (b : Byte) : indexSum i b = i + b.setWidth 16 := by
  apply BitVec.eq_of_toNat_eq
  have := b.isLt
  simp [indexSum, Nat.mod_eq_of_lt (show b.toNat < 65536 by omega)]

/-! Flags as bytes, and the nibble of R152. -/

theorem flagByte_toNat (b : Bool) : (flagByte b).toNat = if b then 1 else 0 := by cases b <;> rfl

theorem lowNibble_toNat (b : Byte) : (b &&& 0x0F).toNat = b.toNat % 16 := by
  rw [BitVec.toNat_and]
  exact Nat.and_two_pow_sub_one_eq_mod b.toNat 4

/-! The keys (R34, R35, R182). -/

theorem keyAt_of_lt {ks : Keys} {k : Nat} (h : k < 16) : keyAt ks k = ks[k] := dif_pos h

@[simp] theorem keyAt_up (k : Nat) : keyAt (Vector.replicate 16 false) k = false := by
  unfold keyAt
  split <;> simp

/-- The lowest number that passes a test is the head of the ones that do. -/
theorem filter_range_head {p : Nat → Bool} {n k : Nat} (hk : k < n) (hp : p k = true) (hl : ∀ j, j < k → p j = false) :
    ∃ ks, (List.range n).filter p = k :: ks := by
  obtain ⟨m, rfl⟩ : ∃ m, n = k + (m + 1) := ⟨n - k - 1, by omega⟩
  rw [List.range_add, List.filter_append,
    List.filter_eq_nil_iff.2 (by intro a ha; simp [hl a (List.mem_range.1 ha)]), List.range_succ_eq_map]
  simp [hp]

end Sys2Proof.Machine
end

