-- ==== Sys2Proof/Laws/Exec.lean ====
section
/-!
SUPPORT. What an instruction can do: complete, or take its one fault; and the frame lemmas that the shared endings of the
meanings have in common.
-/

namespace Sys2Proof.Machine

/-! Frames. -/

theorem HostSideKept.refl (s : State) : HostSideKept s s := ⟨rfl, rfl, rfl, rfl, rfl⟩

theorem FaultRegsKept.refl (s : State) : FaultRegsKept s s := ⟨rfl, rfl, rfl, rfl, rfl, rfl⟩

theorem Unchanged.refl (c : Component) (s : State) : Unchanged c s s := by cases c <;> simp [Unchanged]

/-- The frame of a completing step, from what its execute phase keeps. -/
theorem onlyChanges_retire {cs : List Component} {s u : State} (hs : HostSideKept s u) (hf : FaultRegsKept s u)
    (hu : ∀ c, c ∉ cs → Unchanged c s u) : OnlyChanges cs s (retire u) where
  hostSide := ⟨hs.params, hs.hostKey, hs.loaded, hs.inputs, hs.outputs⟩
  faultRegs := ⟨hf.runState, hf.faultCause, hf.faultPc, hf.faultOpcode, hf.faultOpcodeValid, hf.faultInfo⟩
  keyPrev := hs.hostKey
  rest := fun c hc => by
    have := hu c hc
    cases c <;> exact this

/-- Raising a fault gives the state that R204 prescribes. -/
theorem takeFault_eq_faultedState (f : Fault) (info : Nat) (w : Word) (s : State) :
    takeFault f info (some w) s = faultedState f info w true s := rfl

/-! The two endings of each instruction that can fault or wait, as equations. -/

theorem exec_ret_completes {s : State} {w : Word} (h : s.stack.getLast? = some w) :
    exec .ret s = .next (retire (setPc w (setStack s.stack.dropLast (advance s)))) := by
  simp only [exec, execRet, h, complete]

theorem exec_ret_faults {s : State} (h : s.stack.getLast? = none) :
    exec .ret s = .next (takeFault .stackUnderflow 0 (some (encode .ret)) s) := by
  simp only [exec, execRet, h, raise]

theorem exec_call_completes {nnn : Addr} {s : State} (h : s.stack.length ≠ s.params.stackDepth) :
    exec (.call nnn) s =
      .next (retire (setPc (addrWord nnn) (setStack (s.stack ++ [(advance s).pc]) (advance s)))) := by
  simp only [exec, execCall, if_neg h, complete]

theorem exec_call_faults {nnn : Addr} {s : State} (h : s.stack.length = s.params.stackDepth) :
    exec (.call nnn) s = .next (takeFault .stackOverflow s.params.stackDepth (some (encode (.call nnn))) s) := by
  simp only [exec, execCall, if_pos h, raise]

theorem exec_skipKeyDown_completes {x : Nibble} {s : State} (h : ¬ 15 < (reg s x).toNat) :
    exec (.skipKeyDown x) s =
      .next (retire (if keyAt s.hostKey (reg s x).toNat then advance (advance s) else advance s)) := by
  simp only [exec, execSkipKeyDown, if_neg h, skipIf, complete]

theorem exec_skipKeyDown_faults {x : Nibble} {s : State} (h : 15 < (reg s x).toNat) :
    exec (.skipKeyDown x) s = .next (takeFault .keyIndex (reg s x).toNat (some (encode (.skipKeyDown x))) s) := by
  simp only [exec, execSkipKeyDown, if_pos h, raise]

theorem exec_skipKeyUp_completes {x : Nibble} {s : State} (h : ¬ 15 < (reg s x).toNat) :
    exec (.skipKeyUp x) s =
      .next (retire (if !keyAt s.hostKey (reg s x).toNat then advance (advance s) else advance s)) := by
  simp only [exec, execSkipKeyUp, if_neg h, skipIf, complete]

theorem exec_skipKeyUp_faults {x : Nibble} {s : State} (h : 15 < (reg s x).toNat) :
    exec (.skipKeyUp x) s = .next (takeFault .keyIndex (reg s x).toNat (some (encode (.skipKeyUp x))) s) := by
  simp only [exec, execSkipKeyUp, if_pos h, raise]

theorem exec_getKeyBlocking_waits {x : Nibble} {s : State} (h : freshKeys s = []) :
    exec (.getKeyBlocking x) s = .next (retire (setPc ((advance s).pc - 2) (advance s))) := by
  simp only [exec, execGetKeyBlocking, h, complete]

theorem exec_getKeyBlocking_takes {x : Nibble} {s : State} {k : Nat} {ks : List Nat} (h : freshKeys s = k :: ks) :
    exec (.getKeyBlocking x) s = .next (retire (setReg x (BitVec.ofNat 8 k) (advance s))) := by
  simp only [exec, execGetKeyBlocking, h, complete]

theorem exec_draw_completes {x y n : Nibble} {s : State} (h : accessFault s n.toNat = none) :
    exec (.draw x y n) s =
      .next (retire (setReg vf (flagByte (drawPixels (drawTargets x y n s) (s.disp, false)).2)
        (setDisp (drawPixels (drawTargets x y n s) (s.disp, false)).1 (advance s)))) := by
  simp only [exec, execDraw, h, complete]

theorem exec_draw_faults {x y n : Nibble} {s : State} {a : Nat} (h : accessFault s n.toNat = some a) :
    exec (.draw x y n) s = .next (takeFault .memBounds a (some (encode (.draw x y n))) s) := by
  simp only [exec, execDraw, h, raise]

theorem exec_bcd_completes {x : Nibble} {s : State} (h : accessFault s 3 = none) :
    exec (.bcd x) s = .next (retire (writeBytes (effAddr s 0) (bcdDigits (reg s x)) (advance s))) := by
  simp only [exec, execBcd, h, complete]

theorem exec_bcd_faults {x : Nibble} {s : State} {a : Nat} (h : accessFault s 3 = some a) :
    exec (.bcd x) s = .next (takeFault .memBounds a (some (encode (.bcd x))) s) := by
  simp only [exec, execBcd, h, raise]

theorem exec_storeRegs_completes {x : Nibble} {s : State} (h : accessFault s (rangeCount x) = none) :
    exec (.storeRegs x) s = .next (retire (writeBytes (effAddr s 0) (regRange s x) (advance s))) := by
  simp only [exec, execStoreRegs, h, complete]

theorem exec_storeRegs_faults {x : Nibble} {s : State} {a : Nat} (h : accessFault s (rangeCount x) = some a) :
    exec (.storeRegs x) s = .next (takeFault .memBounds a (some (encode (.storeRegs x))) s) := by
  simp only [exec, execStoreRegs, h, raise]

theorem exec_loadRegs_completes {x : Nibble} {s : State} (h : accessFault s (rangeCount x) = none) :
    exec (.loadRegs x) s = .next (retire (setRegsFrom 0 (bytesAtIndex s (rangeCount x)) (advance s))) := by
  simp only [exec, execLoadRegs, h, complete]

theorem exec_loadRegs_faults {x : Nibble} {s : State} {a : Nat} (h : accessFault s (rangeCount x) = some a) :
    exec (.loadRegs x) s = .next (takeFault .memBounds a (some (encode (.loadRegs x))) s) := by
  simp only [exec, execLoadRegs, h, raise]

/-! The inversion of `exec`. -/

/-- What an execute phase that does not fault keeps, for every instruction. -/
structure Kept (s u : State) : Prop where
  hostSide : HostSideKept s u
  faultRegs : FaultRegsKept s u
  mem : Memory.wf s.params s.mem → Memory.wf s.params u.mem
  stack : s.stack.length ≤ s.params.stackDepth → u.stack.length ≤ s.params.stackDepth

/-- `i` completes, or takes its one fault with an information in that fault's range. -/
def Answers (i : Instr) (s : State) : Prop :=
  (∃ u, exec i s = .next (retire u) ∧ Kept s u) ∨
  ∃ f info, faultOf i = some f ∧ InfoInRange s.params info f ∧ exec i s = .next (takeFault f info (some (encode i)) s)

theorem Kept.refl (s : State) : Kept s s := ⟨.refl s, .refl s, id, id⟩

/-- An update of pc, I, V, a timer, the display or the draw count keeps what `Kept` says. -/
theorem Kept.of_fields {s u : State} (hh : HostSideKept s u) (hf : FaultRegsKept s u) (hm : u.mem = s.mem)
    (hst : u.stack = s.stack) : Kept s u := ⟨hh, hf, by rw [hm]; exact id, by rw [hst]; exact id⟩

theorem kept_advance (s : State) : Kept s (advance s) :=
  .of_fields ⟨rfl, rfl, rfl, rfl, rfl⟩ ⟨rfl, rfl, rfl, rfl, rfl, rfl⟩ rfl rfl

theorem kept_setReg_advance (x : Nibble) (b : Byte) (s : State) : Kept s (setReg x b (advance s)) :=
  .of_fields ⟨rfl, rfl, rfl, rfl, rfl⟩ ⟨rfl, rfl, rfl, rfl, rfl, rfl⟩ rfl rfl

theorem answers_of_complete {i : Instr} {s u : State} (h : exec i s = complete u) (hk : Kept s u) : Answers i s :=
  .inl ⟨u, h, hk⟩

theorem kept_skip (c : Bool) (s : State) : Kept s (if c then advance (advance s) else advance s) := by
  cases c
  · exact kept_advance s
  · exact .of_fields ⟨rfl, rfl, rfl, rfl, rfl⟩ ⟨rfl, rfl, rfl, rfl, rfl, rfl⟩ rfl rfl

theorem kept_writeBytes {s : State} {a : Nat} {l : List Byte} (h : a + l.length ≤ memSize) :
    Kept s (writeBytes a l (advance s)) := by
  have e := writeBytes_eq a l (advance s)
  refine ⟨?_, ?_, fun hm => writeBytes_wf (s := advance s) hm h, fun hs => ?_⟩
  · rw [e]; exact ⟨rfl, rfl, rfl, rfl, rfl⟩
  · rw [e]; exact ⟨rfl, rfl, rfl, rfl, rfl, rfl⟩
  · rw [e]; exact hs

theorem kept_setRegsFrom (k : Nat) (l : List Byte) (s : State) : Kept s (setRegsFrom k l (advance s)) := by
  rw [setRegsFrom_eq]
  exact .of_fields ⟨rfl, rfl, rfl, rfl, rfl⟩ ⟨rfl, rfl, rfl, rfl, rfl, rfl⟩ rfl rfl

/-- The information of a bounds fault is an address of 0x1000 or above (R200). -/
theorem memBounds_info {s : State} {n a : Nat} (h : accessFault s n = some a) : InfoInRange s.params a .memBounds := by
  obtain ⟨-, -, rfl⟩ := accessFault_eq_some.1 h
  have := s.index.isLt
  exact ⟨by omega, by omega⟩

/-- An access that passes the check stays inside memory (R52). -/
theorem access_inside {s : State} {n : Nat} (h : accessFault s n = none) (hn : 0 < n) : effAddr s 0 + n ≤ memSize := by
  have := accessFault_eq_none.1 h
  simp only [effAddr, memSize]
  omega

/-- Every instruction completes or takes its one fault: no instruction stops the model (R93, R200, R205). -/
theorem exec_answers (i : Instr) (s : State) : Answers i s := by
  cases i with
  | clear => exact answers_of_complete rfl (.of_fields ⟨rfl, rfl, rfl, rfl, rfl⟩ ⟨rfl, rfl, rfl, rfl, rfl, rfl⟩ rfl rfl)
  | jump nnn => exact answers_of_complete rfl (.of_fields ⟨rfl, rfl, rfl, rfl, rfl⟩ ⟨rfl, rfl, rfl, rfl, rfl, rfl⟩ rfl rfl)
  | aluAdd x y => exact answers_of_complete rfl (.of_fields ⟨rfl, rfl, rfl, rfl, rfl⟩ ⟨rfl, rfl, rfl, rfl, rfl, rfl⟩ rfl rfl)
  | aluSub x y => exact answers_of_complete rfl (.of_fields ⟨rfl, rfl, rfl, rfl, rfl⟩ ⟨rfl, rfl, rfl, rfl, rfl, rfl⟩ rfl rfl)
  | aluShr x y => exact answers_of_complete rfl (.of_fields ⟨rfl, rfl, rfl, rfl, rfl⟩ ⟨rfl, rfl, rfl, rfl, rfl, rfl⟩ rfl rfl)
  | aluSubn x y => exact answers_of_complete rfl (.of_fields ⟨rfl, rfl, rfl, rfl, rfl⟩ ⟨rfl, rfl, rfl, rfl, rfl, rfl⟩ rfl rfl)
  | aluShl x y => exact answers_of_complete rfl (.of_fields ⟨rfl, rfl, rfl, rfl, rfl⟩ ⟨rfl, rfl, rfl, rfl, rfl, rfl⟩ rfl rfl)
  | setIndex nnn => exact answers_of_complete rfl (.of_fields ⟨rfl, rfl, rfl, rfl, rfl⟩ ⟨rfl, rfl, rfl, rfl, rfl, rfl⟩ rfl rfl)
  | jumpOffset nnn => exact answers_of_complete rfl (.of_fields ⟨rfl, rfl, rfl, rfl, rfl⟩ ⟨rfl, rfl, rfl, rfl, rfl, rfl⟩ rfl rfl)
  | random x nn => exact answers_of_complete rfl (.of_fields ⟨rfl, rfl, rfl, rfl, rfl⟩ ⟨rfl, rfl, rfl, rfl, rfl, rfl⟩ rfl rfl)
  | setDelay x => exact answers_of_complete rfl (.of_fields ⟨rfl, rfl, rfl, rfl, rfl⟩ ⟨rfl, rfl, rfl, rfl, rfl, rfl⟩ rfl rfl)
  | setSound x => exact answers_of_complete rfl (.of_fields ⟨rfl, rfl, rfl, rfl, rfl⟩ ⟨rfl, rfl, rfl, rfl, rfl, rfl⟩ rfl rfl)
  | fontChar x => exact answers_of_complete rfl (.of_fields ⟨rfl, rfl, rfl, rfl, rfl⟩ ⟨rfl, rfl, rfl, rfl, rfl, rfl⟩ rfl rfl)
  | sys nnn => exact answers_of_complete rfl (kept_advance s)
  | skipEqImm x nn => exact answers_of_complete rfl (kept_skip _ s)
  | skipNeImm x nn => exact answers_of_complete rfl (kept_skip _ s)
  | skipEqReg x y => exact answers_of_complete rfl (kept_skip _ s)
  | skipNeReg x y => exact answers_of_complete rfl (kept_skip _ s)
  | setImm x nn => exact answers_of_complete rfl (kept_setReg_advance x _ s)
  | addImm x nn => exact answers_of_complete rfl (kept_setReg_advance x _ s)
  | aluCopy x y => exact answers_of_complete rfl (kept_setReg_advance x _ s)
  | aluOr x y => exact answers_of_complete rfl (kept_setReg_advance x _ s)
  | aluAnd x y => exact answers_of_complete rfl (kept_setReg_advance x _ s)
  | aluXor x y => exact answers_of_complete rfl (kept_setReg_advance x _ s)
  | getDelay x => exact answers_of_complete rfl (kept_setReg_advance x _ s)
  | addToIndex x =>
    refine .inl ⟨_, rfl, ?_⟩
    split <;> exact .of_fields ⟨rfl, rfl, rfl, rfl, rfl⟩ ⟨rfl, rfl, rfl, rfl, rfl, rfl⟩ rfl rfl
  | ret =>
    cases h : s.stack.getLast? with
    | none => exact .inr ⟨.stackUnderflow, 0, rfl, rfl, exec_ret_faults h⟩
    | some w =>
      refine .inl ⟨_, exec_ret_completes h, ⟨rfl, rfl, rfl, rfl, rfl⟩, ⟨rfl, rfl, rfl, rfl, rfl, rfl⟩, id, fun hs => ?_⟩
      simp
      omega
  | call nnn =>
    by_cases h : s.stack.length = s.params.stackDepth
    · exact .inr ⟨.stackOverflow, s.params.stackDepth, rfl, rfl, exec_call_faults h⟩
    · refine .inl ⟨_, exec_call_completes h, ⟨rfl, rfl, rfl, rfl, rfl⟩, ⟨rfl, rfl, rfl, rfl, rfl, rfl⟩, id, fun hs => ?_⟩
      simp
      omega
  | draw x y n =>
    cases h : accessFault s n.toNat with
    | some a => exact .inr ⟨.memBounds, a, rfl, memBounds_info h, exec_draw_faults h⟩
    | none => exact .inl ⟨_, exec_draw_completes h, .of_fields ⟨rfl, rfl, rfl, rfl, rfl⟩ ⟨rfl, rfl, rfl, rfl, rfl, rfl⟩ rfl rfl⟩
  | skipKeyDown x =>
    by_cases h : 15 < (reg s x).toNat
    · exact .inr ⟨.keyIndex, _, rfl, ⟨h, Nat.le_of_lt_succ (reg s x).isLt⟩, exec_skipKeyDown_faults h⟩
    · exact .inl ⟨_, exec_skipKeyDown_completes h, kept_skip _ s⟩
  | skipKeyUp x =>
    by_cases h : 15 < (reg s x).toNat
    · exact .inr ⟨.keyIndex, _, rfl, ⟨h, Nat.le_of_lt_succ (reg s x).isLt⟩, exec_skipKeyUp_faults h⟩
    · exact .inl ⟨_, exec_skipKeyUp_completes h, kept_skip _ s⟩
  | getKeyBlocking x =>
    cases h : freshKeys s with
    | nil => exact .inl ⟨_, exec_getKeyBlocking_waits h, .of_fields ⟨rfl, rfl, rfl, rfl, rfl⟩ ⟨rfl, rfl, rfl, rfl, rfl, rfl⟩ rfl rfl⟩
    | cons k ks => exact .inl ⟨_, exec_getKeyBlocking_takes h, kept_setReg_advance x _ s⟩
  | bcd x =>
    cases h : accessFault s 3 with
    | some a => exact .inr ⟨.memBounds, a, rfl, memBounds_info h, exec_bcd_faults h⟩
    | none => exact .inl ⟨_, exec_bcd_completes h, kept_writeBytes (access_inside h (Nat.succ_pos 2))⟩
  | storeRegs x =>
    cases h : accessFault s (rangeCount x) with
    | some a => exact .inr ⟨.memBounds, a, rfl, memBounds_info h, exec_storeRegs_faults h⟩
    | none =>
      refine .inl ⟨_, exec_storeRegs_completes h, kept_writeBytes ?_⟩
      rw [length_regRange]
      exact access_inside h (Nat.succ_pos _)
  | loadRegs x =>
    cases h : accessFault s (rangeCount x) with
    | some a => exact .inr ⟨.memBounds, a, rfl, memBounds_info h, exec_loadRegs_faults h⟩
    | none => exact .inl ⟨_, exec_loadRegs_completes h, kept_setRegsFrom _ _ s⟩

/-! FX1E, whose flag write is conditional (R151). -/

theorem exec_addToIndex_overflows {x : Nibble} {s : State} (h : indexOverflow (indexSum s.index (reg s x)) = true) :
    exec (.addToIndex x) s =
      .next (retire (setReg vf 1 (setIndexReg (indexSum s.index (reg s x)) (advance s)))) := by
  simp only [exec, execAddToIndex, complete, if_pos h]

theorem exec_addToIndex_stays {x : Nibble} {s : State} (h : ¬ indexOverflow (indexSum s.index (reg s x)) = true) :
    exec (.addToIndex x) s = .next (retire (setIndexReg (indexSum s.index (reg s x)) (advance s))) := by
  simp only [exec, execAddToIndex, complete, if_neg h]

/-! What a completing step leaves in V. -/

theorem reg_retire_setReg {x : Nibble} {b : Byte} {u : State} : reg (retire (setReg x b u)) x = b :=
  (reg_setReg x x b _).trans (if_pos rfl)

theorem regsKeptBut_retire_setReg {x : Nibble} {b : Byte} {s u : State} (h : ∀ r, reg u r = reg s r) :
    RegsKeptBut [x] s (retire (setReg x b u)) := fun r hr =>
  ((reg_setReg x r _ _).trans (if_neg (by simpa using hr))).trans (h r)

/-- The first address outside memory, as a number (R52, R200). -/
theorem firstOutside_iff {base n a : Nat} : FirstOutside base n a ↔ 0 < n ∧ 4096 < base + n ∧ a = max base 4096 := by
  constructor
  · rintro ⟨h1, h2, h3, h4⟩
    refine ⟨by omega, by omega, ?_⟩
    by_contra hne
    have := h4 (max base 4096) (by omega) (by omega)
    omega
  · rintro ⟨h1, h2, rfl⟩
    exact ⟨by omega, by omega, by omega, fun b _ _ => by omega⟩

end Sys2Proof.Machine
end

