-- ==== Sys2Proof/Laws/Events.lean ====
section
/-!
SUPPORT. What a step of the machine can do: the next event, by its kind.
-/

namespace Sys2Proof.Machine

/-- A step with no event listed is a Step event. -/
theorem step_of_no_inputs {s : State} (h : s.inputs = []) : step s = eventStep s := by
  simp [step, nextEvent, h]

/-- A step takes the next event from the list and applies it. -/
theorem step_of_input {s : State} {e : Event} {rest : List Event} (h : s.inputs = e :: rest) :
    step s = applyEvent e { s with inputs := rest } := by
  simp [step, nextEvent, h]

theorem eventStep_of_running {s : State} (h : s.runState = .running) : eventStep s = runInstruction s := by
  simp [eventStep, h]

theorem eventStep_of_not_running {s : State} (h : s.runState ≠ .running) : eventStep s = .next s := by
  unfold eventStep
  split <;> simp_all

/-- Fetch of a word inside memory (R91). -/
theorem fetchWord_of_inside {s : State} (h : s.pc.toNat + 1 < 4096) :
    fetchWord s = .ok (readByte s s.pc.toNat ++ readByte s (s.pc.toNat + 1)) := by
  unfold fetchWord memSize
  rw [if_neg (by omega), if_neg (by omega)]
  rfl

/-- Fetch of a word outside memory: the first address outside (R91). -/
theorem fetchWord_of_outside {s : State} (h : 4096 ≤ s.pc.toNat + 1) :
    fetchWord s = .error (if 4096 ≤ s.pc.toNat then s.pc.toNat else s.pc.toNat + 1) := by
  unfold fetchWord memSize
  split_ifs <;> rfl

/-- A running core takes a fetch fault, executes the instruction at pc, or does the no-op (R91, R93, R94). -/
theorem runInstruction_cases (s : State) :
    (4096 ≤ s.pc.toNat + 1 ∧
      runInstruction s =
        .next (takeFault .fetchBounds (if 4096 ≤ s.pc.toNat then s.pc.toNat else s.pc.toNat + 1) none s)) ∨
    (∃ i, Fetches s i ∧ runInstruction s = exec i s) ∨
    (s.pc.toNat + 1 < 4096 ∧
      (∃ e, decodeWord (readByte s s.pc.toNat ++ readByte s (s.pc.toNat + 1)) = .error e) ∧
      runInstruction s = .next (retire (advance s))) := by
  by_cases h : s.pc.toNat + 1 < 4096
  · right
    cases hd : decodeWord (readByte s s.pc.toNat ++ readByte s (s.pc.toNat + 1)) with
    | ok i => exact .inl ⟨i, ⟨h, hd⟩, by simp [runInstruction, fetchWord_of_inside h, hd]⟩
    | error e => exact .inr ⟨h, ⟨e, rfl⟩, by simp [runInstruction, fetchWord_of_inside h, hd, noOp, complete]⟩
  · left
    exact ⟨by omega, by simp [runInstruction, fetchWord_of_outside (show 4096 ≤ s.pc.toNat + 1 by omega)]⟩

/-- One decrement of a timer, as a number (R220). -/
theorem countDown_toNat (b : Byte) : (countDown b).toNat = b.toNat - 1 := by
  unfold countDown
  split
  · subst b; rfl
  · have : b.toNat ≠ 0 := fun h => ‹¬ _› (BitVec.eq_of_toNat_eq h)
    have := b.isLt
    simp [BitVec.toNat_sub]
    omega

/-- A run of k + 1 steps, from its first step. -/
theorem run_succ {s t : State} (k : Nat) (h : step s = .next t) :
    Host.Core.run core (k + 1) s = Host.Core.run core k t := by
  have h' : core.step s = .next t := h
  simp only [Host.Core.run, h']

end Sys2Proof.Machine
end

