-- ==== Sys2Proof/Laws/PerInstr.lean ====
section
/-!
SUPPORT. Statements made per instruction. `EncodingRow`: the word of an instruction has the fixed bits of its row of the opcode
table (R76).
-/

namespace Sys2Proof.Laws.EncodingRow

/-- The word of `i`, masked, is the match of its row. -/
def Statement (i : Instr) : Prop := encode i &&& (patternOf i).1 = (patternOf i).2

/-- Masking a word of format A (R72), field by field. -/
theorem mask_formatA (a : Nibble) (nnn : Addr) : (a ++ nnn : Word) &&& 0xF000 = a ++ 0#12 := by
  have h : (a ++ nnn) &&& (0xF#4 ++ 0#12) = (a &&& 0xF#4) ++ (nnn &&& 0#12) := BitVec.and_append
  have ha : a &&& 0xF#4 = a := BitVec.and_allOnes
  rw [ha, BitVec.and_zero] at h
  exact h

/-- Masking a word of format XI (R72). -/
theorem mask_formatXI (a x : Nibble) (nn : Byte) : (a ++ x ++ nn : Word) &&& 0xF000 = a ++ 0#12 := by
  have h : (a ++ x ++ nn) &&& (0xF#4 ++ 0#4 ++ 0#8) = (a ++ x &&& 0xF#4 ++ 0#4) ++ (nn &&& 0#8) := BitVec.and_append
  have h2 : (a ++ x) &&& (0xF#4 ++ 0#4) = (a &&& 0xF#4) ++ (x &&& 0#4) := BitVec.and_append
  have ha : a &&& 0xF#4 = a := BitVec.and_allOnes
  rw [h2, ha, BitVec.and_zero, BitVec.and_zero] at h
  refine h.trans (BitVec.eq_of_toNat_eq ?_)
  rw [toNat_formatA]
  exact (toNat_formatXI a 0 0).trans (by simp)

/-- Masking a word of format XO (R72). -/
theorem mask_formatXO (a x : Nibble) (nn : Byte) : (a ++ x ++ nn : Word) &&& 0xF0FF = a ++ 0#4 ++ nn := by
  have h : (a ++ x ++ nn) &&& (0xF#4 ++ 0#4 ++ 0xFF#8) = (a ++ x &&& 0xF#4 ++ 0#4) ++ (nn &&& 0xFF#8) := BitVec.and_append
  have h2 : (a ++ x) &&& (0xF#4 ++ 0#4) = (a &&& 0xF#4) ++ (x &&& 0#4) := BitVec.and_append
  have ha : a &&& 0xF#4 = a := BitVec.and_allOnes
  have hn : nn &&& 0xFF#8 = nn := BitVec.and_allOnes
  rw [h2, ha, hn, BitVec.and_zero] at h
  exact h

/-- Masking a word of format XY (R72). -/
theorem mask_formatXY (a x y n : Nibble) : (a ++ x ++ y ++ n : Word) &&& 0xF00F = a ++ 0#4 ++ 0#4 ++ n := by
  have h : (a ++ x ++ y ++ n) &&& (0xF#4 ++ 0#4 ++ 0#4 ++ 0xF#4) = (a ++ x ++ y &&& 0xF#4 ++ 0#4 ++ 0#4) ++ (n &&& 0xF#4) :=
    BitVec.and_append
  have h3 : (a ++ x ++ y) &&& (0xF#4 ++ 0#4 ++ 0#4) = (a ++ x &&& 0xF#4 ++ 0#4) ++ (y &&& 0#4) := BitVec.and_append
  have h2 : (a ++ x) &&& (0xF#4 ++ 0#4) = (a &&& 0xF#4) ++ (x &&& 0#4) := BitVec.and_append
  have ha : a &&& 0xF#4 = a := BitVec.and_allOnes
  have hn : n &&& 0xF#4 = n := BitVec.and_allOnes
  rw [h3, h2, ha, hn, BitVec.and_zero, BitVec.and_zero] at h
  exact h

/-- Masking a word of format XYN (R72). -/
theorem mask_formatXYN (a x y n : Nibble) : (a ++ x ++ y ++ n : Word) &&& 0xF000 = a ++ 0#12 := by
  have e : (a ++ x ++ y ++ n : Word) = a ++ x ++ (y ++ n : Byte) := by
    apply BitVec.eq_of_toNat_eq
    rw [toNat_formatXY, toNat_formatXI, BitVec.toNat_append, ← Nat.shiftLeft_add_eq_or_of_lt n.isLt, Nat.shiftLeft_eq]
    omega
  rw [e, mask_formatXI]

theorem clear : Statement (.clear) := rfl
theorem ret : Statement (.ret) := rfl
theorem sys (nnn : Addr) : Statement (.sys nnn) := (mask_formatA 0x0#4 nnn).trans rfl
theorem jump (nnn : Addr) : Statement (.jump nnn) := (mask_formatA 0x1#4 nnn).trans rfl
theorem call (nnn : Addr) : Statement (.call nnn) := (mask_formatA 0x2#4 nnn).trans rfl
theorem skipEqImm (x : Nibble) (nn : Byte) : Statement (.skipEqImm x nn) := (mask_formatXI 0x3#4 x nn).trans rfl
theorem skipNeImm (x : Nibble) (nn : Byte) : Statement (.skipNeImm x nn) := (mask_formatXI 0x4#4 x nn).trans rfl
theorem skipEqReg (x : Nibble) (y : Nibble) : Statement (.skipEqReg x y) := (mask_formatXY 0x5#4 x y 0x0#4).trans rfl
theorem setImm (x : Nibble) (nn : Byte) : Statement (.setImm x nn) := (mask_formatXI 0x6#4 x nn).trans rfl
theorem addImm (x : Nibble) (nn : Byte) : Statement (.addImm x nn) := (mask_formatXI 0x7#4 x nn).trans rfl
theorem aluCopy (x : Nibble) (y : Nibble) : Statement (.aluCopy x y) := (mask_formatXY 0x8#4 x y 0x0#4).trans rfl
theorem aluOr (x : Nibble) (y : Nibble) : Statement (.aluOr x y) := (mask_formatXY 0x8#4 x y 0x1#4).trans rfl
theorem aluAnd (x : Nibble) (y : Nibble) : Statement (.aluAnd x y) := (mask_formatXY 0x8#4 x y 0x2#4).trans rfl
theorem aluXor (x : Nibble) (y : Nibble) : Statement (.aluXor x y) := (mask_formatXY 0x8#4 x y 0x3#4).trans rfl
theorem aluAdd (x : Nibble) (y : Nibble) : Statement (.aluAdd x y) := (mask_formatXY 0x8#4 x y 0x4#4).trans rfl
theorem aluSub (x : Nibble) (y : Nibble) : Statement (.aluSub x y) := (mask_formatXY 0x8#4 x y 0x5#4).trans rfl
theorem aluShr (x : Nibble) (y : Nibble) : Statement (.aluShr x y) := (mask_formatXY 0x8#4 x y 0x6#4).trans rfl
theorem aluSubn (x : Nibble) (y : Nibble) : Statement (.aluSubn x y) := (mask_formatXY 0x8#4 x y 0x7#4).trans rfl
theorem aluShl (x : Nibble) (y : Nibble) : Statement (.aluShl x y) := (mask_formatXY 0x8#4 x y 0xE#4).trans rfl
theorem skipNeReg (x : Nibble) (y : Nibble) : Statement (.skipNeReg x y) := (mask_formatXY 0x9#4 x y 0x0#4).trans rfl
theorem setIndex (nnn : Addr) : Statement (.setIndex nnn) := (mask_formatA 0xA#4 nnn).trans rfl
theorem jumpOffset (nnn : Addr) : Statement (.jumpOffset nnn) := (mask_formatA 0xB#4 nnn).trans rfl
theorem random (x : Nibble) (nn : Byte) : Statement (.random x nn) := (mask_formatXI 0xC#4 x nn).trans rfl
theorem draw (x : Nibble) (y : Nibble) (n : Nibble) : Statement (.draw x y n) := (mask_formatXYN 0xD#4 x y n).trans rfl
theorem skipKeyDown (x : Nibble) : Statement (.skipKeyDown x) := (mask_formatXO 0xE#4 x 0x9E#8).trans rfl
theorem skipKeyUp (x : Nibble) : Statement (.skipKeyUp x) := (mask_formatXO 0xE#4 x 0xA1#8).trans rfl
theorem getDelay (x : Nibble) : Statement (.getDelay x) := (mask_formatXO 0xF#4 x 0x07#8).trans rfl
theorem getKeyBlocking (x : Nibble) : Statement (.getKeyBlocking x) := (mask_formatXO 0xF#4 x 0x0A#8).trans rfl
theorem setDelay (x : Nibble) : Statement (.setDelay x) := (mask_formatXO 0xF#4 x 0x15#8).trans rfl
theorem setSound (x : Nibble) : Statement (.setSound x) := (mask_formatXO 0xF#4 x 0x18#8).trans rfl
theorem addToIndex (x : Nibble) : Statement (.addToIndex x) := (mask_formatXO 0xF#4 x 0x1E#8).trans rfl
theorem fontChar (x : Nibble) : Statement (.fontChar x) := (mask_formatXO 0xF#4 x 0x29#8).trans rfl
theorem bcd (x : Nibble) : Statement (.bcd x) := (mask_formatXO 0xF#4 x 0x33#8).trans rfl
theorem storeRegs (x : Nibble) : Statement (.storeRegs x) := (mask_formatXO 0xF#4 x 0x55#8).trans rfl
theorem loadRegs (x : Nibble) : Statement (.loadRegs x) := (mask_formatXO 0xF#4 x 0x65#8).trans rfl

end Sys2Proof.Laws.EncodingRow
end

