-- ==== Sys2Proof/Tests/Slice0.lean ====
section
/-!
SUPPORT. Tests. The expected values are those of the spec's own vectors (95_test_vectors.md; a vector's name such as AL-9 or E9
stands in the docstring), or are worked out by hand from the rule named there. `witness_…` shows that the hypotheses of an
obligation are met together by a concrete state.
-/

namespace Sys2Proof.Tests

open Sys2Proof.Machine

/-! Helpers. -/

/-- A machine after Reset, Load of nothing and Start, with registers set from a list of number and value. -/
def ready (regs : List (Nibble × Byte)) : State :=
  regs.foldl (fun s p => setReg p.1 p.2 s) { State.reset with runState := .running, loaded := true }

/-- The same with I set. -/
def readyAt (i : Word) (regs : List (Nibble × Byte)) : State := setIndexReg i (ready regs)

/-- The state after a step, if there is one. -/
def nextOf (o : Host.Outcome State Fault Refusal) : Option State :=
  match o with
  | .next t => some t
  | .fault _ => none
  | .refused _ => none

/-- The refusal of a step, if it is one. -/
def refusalOf (o : Host.Outcome State Fault Refusal) : Option Refusal :=
  match o with
  | .next _ => none
  | .fault _ => none
  | .refused r => some r

/-- One step with the word `w` where the machine fetches, and what `look` sees after it. -/
def after (w : Nat) (s : State) {α : Type} (look : State → α) : Option α := (nextOf (step (s.withFetchWord 16 w))).map look

/-- One event, and what `look` sees after it. -/
def event (e : Event) (s : State) {α : Type} (look : State → α) : Option α :=
  (nextOf (step { s with inputs := [e] })).map look

/-- V0 and VF, the registers most vectors of 42_register_alu.md look at. -/
def v0vf (s : State) : Byte × Byte := (reg s 0, reg s 15)

/-- The pixels that are on in a list of pixels. -/
def litOf (ps : List (Nat × Nat)) (s : State) : List (Nat × Nat) := ps.filter fun p => pixelAt s.disp p.1 p.2

/-- How many pixels of a list of columns and rows are on. -/
def countLit (xs ys : List Nat) (s : State) : Nat :=
  (xs.map fun x => (ys.filter fun y => pixelAt s.disp x y).length).sum

/-- The fault registers (R37). -/
def faultRegs (s : State) : BitVec 3 × Word × Word × Bool × BitVec 17 :=
  (faultCauseCode s, s.faultPc, s.faultOpcode, s.faultOpcodeValid, s.faultInfo)

/-- Keys as the list of those that are down. -/
def keysDown (ks : List Nat) : Keys := ks.foldl (fun v k => if h : k < 16 then v.set k true else v) (Vector.replicate 16 false)

/-! Well-formedness: the one check there is, on both words that `sys` must not claim (R76). -/

theorem test_ill_formed_sys_00E0 : (Instr.sys 0x0E0).wellFormed = false := by decide
theorem test_ill_formed_sys_00EE : (Instr.sys 0x0EE).wellFormed = false := by decide
theorem test_well_formed_sys_00E1 : (Instr.sys 0x0E1).wellFormed = true := by decide

/-! Decoding: a word of every constructor, bit by bit from R71, R75 and R76. -/

theorem test_decode_control :
    decodeWord 0b0000000011101110 = .ok .ret ∧ decodeWord 0b0000000100100011 = .ok (.sys 0x123) ∧
    decodeWord 0b0001111111111110 = .ok (.jump 0xFFE) ∧ decodeWord 0b0010001000010000 = .ok (.call 0x210) ∧
    decodeWord 0b0011000100000101 = .ok (.skipEqImm 1 0x05) ∧ decodeWord 0b0100000111111111 = .ok (.skipNeImm 1 0xFF) ∧
    decodeWord 0b0101000100100000 = .ok (.skipEqReg 1 2) ∧ decodeWord 0b1001101000110000 = .ok (.skipNeReg 0xA 3) ∧
    decodeWord 0b1011001100000000 = .ok (.jumpOffset 0x300) := by decide

theorem test_decode_alu :
    decodeWord 0b0110101001000010 = .ok (.setImm 0xA 0x42) ∧ decodeWord 0b0111000000000011 = .ok (.addImm 0 0x03) ∧
    decodeWord 0b1000000100100000 = .ok (.aluCopy 1 2) ∧ decodeWord 0b1000000100100001 = .ok (.aluOr 1 2) ∧
    decodeWord 0b1000000100100010 = .ok (.aluAnd 1 2) ∧ decodeWord 0b1000000100100011 = .ok (.aluXor 1 2) ∧
    decodeWord 0b1000000100100100 = .ok (.aluAdd 1 2) ∧ decodeWord 0b1000000100100101 = .ok (.aluSub 1 2) ∧
    decodeWord 0b1000001110100110 = .ok (.aluShr 3 0xA) ∧ decodeWord 0b1000000100100111 = .ok (.aluSubn 1 2) ∧
    decodeWord 0b1000111100011110 = .ok (.aluShl 0xF 1) ∧ decodeWord 0b1100000100001111 = .ok (.random 1 0x0F) := by decide

theorem test_decode_memory_display :
    decodeWord 0b0000000011100000 = .ok .clear ∧ decodeWord 0b1101001000110101 = .ok (.draw 2 3 5) ∧
    decodeWord 0b1010001100000000 = .ok (.setIndex 0x300) ∧ decodeWord 0b1111001000011110 = .ok (.addToIndex 2) ∧
    decodeWord 0b1111001000101001 = .ok (.fontChar 2) ∧ decodeWord 0b1111000000110011 = .ok (.bcd 0) ∧
    decodeWord 0b1111001101010101 = .ok (.storeRegs 3) ∧ decodeWord 0b1111001101100101 = .ok (.loadRegs 3) := by decide

theorem test_decode_keys_timers :
    decodeWord 0b1110000110011110 = .ok (.skipKeyDown 1) ∧ decodeWord 0b1110000110100001 = .ok (.skipKeyUp 1) ∧
    decodeWord 0b1111001100000111 = .ok (.getDelay 3) ∧ decodeWord 0b1111000100001010 = .ok (.getKeyBlocking 1) ∧
    decodeWord 0b1111000000010101 = .ok (.setDelay 0) ∧ decodeWord 0b1111010000011000 = .ok (.setSound 4) := by decide

/-- R77: a word of each of the five spaces is rejected by the name of its space. -/
theorem test_decode_rejects :
    decodeWord 0x5AB1 = .error .unrecognised5 ∧ decodeWord 0x8ABF = .error .unrecognised8 ∧
    decodeWord 0x9AB8 = .error .unrecognised9 ∧ decodeWord 0xE100 = .error .unrecognisedE ∧
    decodeWord 0xF1FF = .error .unrecognisedF := by decide

/-- R56, R70: two bytes are one instruction, the first the high byte; fewer are refused. -/
theorem test_decode_bytes :
    decodeBytes [0x60, 0x05, 0x70] = .ok (.setImm 0 0x05, [0x70]) ∧ decodeBytes [0x60] = .error .truncated ∧
    decodeBytes [] = .error .truncated := by decide

/-- The opcode table's numbering: bit 0 is the least significant bit of the one word. -/
theorem test_decode_table_word : decodeTableWord 16 0xF265 = some (.loadRegs 2) ∧ decodeTableWord 16 0xE100 = none := by decide

/-! The step (2.1). -/

/-- ST-1, ST-2. -/
theorem test_step_executes : after 0x6005 (ready []) (fun s => (reg s 0, s.pc)) = some (0x05, 0x202) := by decide
theorem test_step_stopped : nextOf (step { State.reset with loaded := true }) = some { State.reset with loaded := true } := by decide

/-- ST-3: an odd pc is fetched as it is. -/
theorem test_step_odd_pc :
    after 0x0100 { ready [] with pc := 0x201 } (fun s => (s.pc, s.runState)) = some (0x203, .running) := by decide

/-- ST-4, ST-5: the no-op writes KeyPrev and pc alone. -/
theorem test_step_unrecognised :
    after 0x5AB1 { ready [] with hostKey := keysDown [4] } id =
      nextOf (.next { (ready []).withFetchWord 16 0x5AB1 with pc := 0x202, hostKey := keysDown [4], keyPrev := keysDown [4] }) := by
  decide

/-- ST-7, ST-8. -/
theorem test_step_fetch_bounds :
    (nextOf (step { ready [] with pc := 0x1000 })).map faultRegs = some (1, 0x1000, 0, false, 0x1000) ∧
    (nextOf (step { ready [] with pc := 0xFFF })).map faultRegs = some (1, 0xFFF, 0, false, 0x1000) := by decide

/-- CF-7, its second step. -/
theorem test_step_fetch_high :
    (nextOf (step { ready [] with pc := 0x10FE })).map (fun s => (faultRegs s, s.pc, s.runState)) =
      some ((1, 0x10FE, 0, false, 0x10FE), 0x10FE, .faulted) := by decide

/-! Control transfer (2.2). -/

/-- CF-1. -/
theorem test_ret :
    after 0x00EE { ready [] with pc := 0x212, stack := [0x206] } (fun s => (s.pc, s.stack)) = some (0x206, []) := by decide
/-- CF-2. -/
theorem test_ret_underflow :
    after 0x00EE (ready []) (fun s => (faultRegs s, s.pc)) = some ((3, 0x200, 0x00EE, true, 0), 0x200) := by decide
/-- ST-6. -/
theorem test_sys : after 0x0123 (ready []) (fun s => s.pc) = some 0x202 := by decide
/-- CF-3. -/
theorem test_jump : after 0x1200 (ready []) (fun s => s.pc) = some 0x200 := by decide
/-- CF-4, with an older entry below. -/
theorem test_call :
    after 0x2210 { ready [] with pc := 0x204, stack := [0x300] } (fun s => (s.pc, s.stack)) =
      some (0x210, [0x300, 0x206]) := by decide
/-- CF-5. -/
theorem test_call_overflow :
    after 0x2200 { ready [] with stack := List.replicate 16 0x202 } (fun s => (faultRegs s, s.stack.length)) =
      some ((4, 0x200, 0x2200, true, 16), 16) := by decide
/-- CF-7, CF-8. -/
theorem test_jump_offset :
    after 0xBFFF (ready [(0, 0xFF), (15, 3)]) (fun s => s.pc) = some 0x10FE ∧
    after 0xB200 (ready [(5, 0x10)]) (fun s => s.pc) = some 0x200 := by decide
/-- CF-10. -/
theorem test_skip_eq_imm :
    after 0x3005 { ready [(0, 5)] with pc := 0x206 } (fun s => s.pc) = some 0x20A ∧
    after 0x3005 { ready [(0, 4)] with pc := 0x206 } (fun s => s.pc) = some 0x208 := by decide
/-- CF-11. -/
theorem test_skip_ne_imm :
    after 0x41FF (ready [(1, 0)]) (fun s => s.pc) = some 0x204 ∧
    after 0x41FF (ready [(1, 0xFF)]) (fun s => s.pc) = some 0x202 := by decide
/-- CF-12, CF-15. -/
theorem test_skip_eq_reg :
    after 0x5120 (ready [(1, 7), (2, 7)]) (fun s => s.pc) = some 0x204 ∧
    after 0x5120 (ready [(1, 7), (2, 8)]) (fun s => s.pc) = some 0x202 := by decide
/-- CF-14, CF-15. -/
theorem test_skip_ne_reg :
    after 0x9120 (ready [(1, 1), (2, 2)]) (fun s => s.pc) = some 0x204 ∧
    after 0x9330 (ready [(3, 9)]) (fun s => s.pc) = some 0x202 := by decide
/-- CF-16: a skip past the end of memory is no fault yet. -/
theorem test_skip_at_end :
    after 0x3000 { ready [] with pc := 0xFFC } (fun s => (s.pc, s.runState)) = some (0x1000, .running) := by decide

/-! Registers, arithmetic and logic (2.3). -/

/-- AL-1. -/
theorem test_set_imm : after 0x6F07 (ready []) v0vf = some (0, 0x07) := by decide
/-- AL-3, AL-4. -/
theorem test_add_imm :
    after 0x70FF (ready [(0, 2), (15, 0x55)]) v0vf = some (0x01, 0x55) ∧
    after 0x7F01 (ready [(15, 0xFF)]) v0vf = some (0, 0) := by decide
/-- AL-5. -/
theorem test_copy : after 0x8010 (ready [(1, 0x33)]) (fun s => (reg s 0, reg s 1)) = some (0x33, 0x33) := by decide
/-- AL-6. -/
theorem test_or : after 0x8011 (ready [(0, 0xF0), (1, 0x0F), (15, 0x77)]) v0vf = some (0xFF, 0x77) := by decide
/-- AL-7. -/
theorem test_and : after 0x8012 (ready [(0, 0xF0), (1, 0x3C), (15, 0x77)]) v0vf = some (0x30, 0x77) := by decide
/-- AL-8. -/
theorem test_xor : after 0x8013 (ready [(0, 0xFF), (1, 0xFF), (15, 0x77)]) v0vf = some (0x00, 0x77) := by decide
/-- AL-9, AL-11. -/
theorem test_add :
    after 0x8014 (ready [(0, 0xFF), (1, 0x01)]) v0vf = some (0x00, 1) ∧
    after 0x8014 (ready [(0, 0x7F), (1, 0x80), (15, 9)]) v0vf = some (0xFF, 0) := by decide
/-- AL-12, AL-13, AL-14. -/
theorem test_add_vf :
    after 0x8F14 (ready [(15, 0xFF), (1, 0x01)]) v0vf = some (0, 1) ∧
    after 0x8F14 (ready [(15, 0x01), (1, 0x01)]) v0vf = some (0, 0) ∧
    after 0x80F4 (ready [(0, 0x10), (15, 0x01)]) v0vf = some (0x11, 0) := by decide
/-- AL-15, AL-16. -/
theorem test_sub :
    after 0x8015 (ready [(0, 3), (1, 5), (15, 9)]) v0vf = some (0xFE, 0) ∧
    after 0x8015 (ready [(0, 5), (1, 5)]) v0vf = some (0x00, 1) := by decide
/-- AL-18, AL-20, AL-21. -/
theorem test_sub_vf :
    after 0x8F15 (ready [(15, 5), (1, 3)]) v0vf = some (0, 2) ∧
    after 0x80F5 (ready [(0, 0x10), (15, 0x20)]) v0vf = some (0xF0, 0) ∧
    after 0x8FF5 (ready [(15, 0x30)]) v0vf = some (0, 0) := by decide
/-- AL-22, AL-24. -/
theorem test_shr :
    after 0x8006 (ready [(0, 1)]) v0vf = some (0x00, 1) ∧
    after 0x8016 (ready [(0, 4), (1, 0xFF), (15, 9)]) v0vf = some (0x02, 0) := by decide
/-- AL-25. -/
theorem test_shr_vf : after 0x8F16 (ready [(15, 5)]) v0vf = some (0, 2) := by decide
/-- AL-26, AL-27. -/
theorem test_subn :
    after 0x8017 (ready [(0, 5), (1, 3), (15, 9)]) v0vf = some (0xFE, 0) ∧
    after 0x8017 (ready [(0, 3), (1, 5)]) v0vf = some (0x02, 1) := by decide
/-- AL-28, AL-29. -/
theorem test_subn_vf :
    after 0x80F7 (ready [(0, 0x10), (15, 0x20)]) v0vf = some (0x10, 1) ∧
    after 0x8F17 (ready [(15, 3), (1, 5)]) v0vf = some (0, 2) := by decide
/-- AL-30, AL-31. -/
theorem test_shl :
    after 0x800E (ready [(0, 0x80)]) v0vf = some (0x00, 1) ∧
    after 0x800E (ready [(0, 0x7F), (15, 9)]) v0vf = some (0xFE, 0) := by decide
/-- AL-32. -/
theorem test_shl_vf : after 0x8F1E (ready [(15, 0x81)]) v0vf = some (0, 2) := by decide
/-- AL-33, AL-35: what the model does with a draw, whichever byte it is. -/
theorem test_random :
    (nextOf (randomWith 0xA7 1 0x0F (ready []))).map (fun s => reg s 1) = some 0x07 ∧
    (nextOf (randomWith 0x5C 1 0xFF (ready []))).map (fun s => reg s 1) = some 0x5C := by decide
/-- R228: each CXNN is one draw. -/
theorem test_random_draws : after 0xC100 (ready []) (fun s => s.draws) = some 1 := by decide

/-! Index register and memory (2.4). -/

/-- IM-1. -/
theorem test_set_index : after 0xA300 (ready []) (fun s => s.index) = some 0x300 := by decide
/-- IM-2, IM-4. -/
theorem test_add_to_index :
    after 0xF21E (readyAt 0xFFE [(2, 3)]) (fun s => (s.index, reg s 15)) = some (0x1001, 1) ∧
    after 0xF21E (readyAt 0x300 [(2, 3), (15, 0x42)]) (fun s => (s.index, reg s 15)) = some (0x303, 0x42) := by decide
/-- IM-6, IM-7. -/
theorem test_add_to_index_wraps :
    after 0xF21E (readyAt 0xFFFF [(2, 1)]) (fun s => (s.index, reg s 15)) = some (0, 0) ∧
    after 0xFF1E (readyAt 0x300 [(15, 5)]) (fun s => (s.index, reg s 15)) = some (0x305, 5) := by decide
/-- IM-8, IM-9. -/
theorem test_font_char :
    after 0xF229 (ready [(2, 0x05)]) (fun s => s.index) = some 0x069 ∧
    after 0xF229 (ready [(2, 0x1A)]) (fun s => s.index) = some 0x082 := by decide
/-- IM-10, IM-11. -/
theorem test_bcd :
    after 0xF033 (readyAt 0x300 [(0, 156)]) (fun s => (bytesAtIndex s 3, s.index)) = some ([1, 5, 6], 0x300) ∧
    after 0xF033 (readyAt 0x300 [(0, 255)]) (fun s => bytesAtIndex s 3) = some [2, 5, 5] := by decide
/-- IM-12, IM-13. -/
theorem test_bcd_bounds :
    after 0xF033 (readyAt 0xFFD []) (fun s => s.runState) = some .running ∧
    after 0xF033 (readyAt 0xFFE [(0, 156)]) (fun s => (faultRegs s, readByte s 0xFFE)) =
      some ((2, 0x200, 0xF033, true, 0x1000), 0) := by decide
/-- IM-14. -/
theorem test_store_regs :
    after 0xF155 (readyAt 0x400 [(0, 0x11), (1, 0x22), (2, 0x33)]) (fun s => (bytesAtIndex s 3, s.index)) =
      some ([0x11, 0x22, 0], 0x400) := by decide
/-- IM-15, IM-16. -/
theorem test_store_regs_bounds :
    after 0xF355 (readyAt 0xFFC [(1, 0x11)]) (fun s => bytesAtIndex s 4) = some [0, 0x11, 0, 0] ∧
    after 0xF455 { readyAt 0xFFC [(1, 0x11)] with pc := 0x204 } (fun s => (faultRegs s, bytesAtIndex s 4)) =
      some ((2, 0x204, 0xF455, true, 0x1000), [0, 0, 0, 0]) := by decide
/-- IM-17, and V3 as it was. -/
theorem test_load_regs :
    after 0xF265 (writeBytes 0x300 [1, 5, 6, 7] (readyAt 0x300 [(3, 9)]))
      (fun s => (reg s 0, reg s 1, reg s 2, reg s 3, s.index)) = some (1, 5, 6, 9, 0x300) := by decide
/-- IM-18, IM-19. -/
theorem test_load_regs_bounds :
    after 0xFF65 (writeBytes 0x30F [0xAB] (readyAt 0x300 [])) (fun s => reg s 15) = some 0xAB ∧
    after 0xF065 (readyAt 0x1000 [(0, 7)]) (fun s => (s.faultInfo, reg s 0)) = some (0x1000, 7) := by decide

/-! Display (2.5). -/

/-- DR-12: a lit pixel goes off, VF stays. -/
theorem test_clear :
    after 0x00E0 { ready [(15, 9)] with disp := flipPixel blankDisplay 63 31 } (fun s => (s.disp, reg s 15)) =
      some (blankDisplay, 9) := by decide
/-- DR-1: the 14 pixels of glyph 0, and no other in the corner. -/
theorem test_draw :
    after 0xD015 (readyAt 0x050 [(15, 9)])
      (fun s => (litOf [(0, 0), (3, 0), (0, 1), (3, 2), (0, 3), (3, 4)] s,
        countLit [0, 1, 2, 3, 4, 5] [0, 1, 2, 3, 4, 5] s, reg s 15)) =
      some ([(0, 0), (3, 0), (0, 1), (3, 2), (0, 3), (3, 4)], 14, 0) := by decide
/-- DR-3: clipped at both edges, and nothing at the far edges. -/
theorem test_draw_clips :
    after 0xD015 (readyAt 0x050 [(0, 0x3E), (1, 0x1E)])
      (fun s => (litOf [(62, 30), (63, 30), (62, 31)] s, countLit [0, 1, 61, 62, 63] [0, 1, 29, 30, 31] s, reg s 15)) =
      some ([(62, 30), (63, 30), (62, 31)], 3, 0) := by decide
/-- DR-5, its second draw. -/
theorem test_draw_collides :
    after 0xD011 { readyAt 0x050 [(0, 2)] with disp := (drawPixels [(0, 0), (1, 0), (2, 0), (3, 0)] (blankDisplay, false)).1 }
      (fun s => (litOf [(0, 0), (1, 0), (2, 0), (3, 0), (4, 0), (5, 0)] s, reg s 15)) =
      some ([(0, 0), (1, 0), (4, 0), (5, 0)], 1) := by decide
/-- DR-7, DR-10. -/
theorem test_draw_bounds :
    after 0xD000 (readyAt 0xFFF [(15, 0xFF)]) (fun s => (s.runState, reg s 15)) = some (.running, 0) ∧
    after 0xD012 (writeBytes 0xFFF [0xFF] (readyAt 0xFFF [(1, 0x1F)])) (fun s => (faultRegs s, pixelAt s.disp 0 31)) =
      some ((2, 0x200, 0xD012, true, 0x1000), false) := by decide

/-! Keypad and timers (2.6). -/

/-- KT-1. -/
theorem test_skip_key_down :
    after 0xE19E { ready [(1, 7)] with hostKey := keysDown [7] } (fun s => s.pc) = some 0x204 ∧
    after 0xE19E { ready [(1, 7)] with hostKey := keysDown [8] } (fun s => s.pc) = some 0x202 := by decide
/-- KT-3. -/
theorem test_skip_key_down_index :
    after 0xE09E { ready [(0, 0x10)] with pc := 0x202 } faultRegs = some (5, 0x202, 0xE09E, true, 0x10) := by decide
/-- KT-2. -/
theorem test_skip_key_up :
    after 0xE1A1 (ready [(1, 7)]) (fun s => s.pc) = some 0x204 ∧
    after 0xE1A1 { ready [(1, 7)] with hostKey := keysDown [7] } (fun s => s.pc) = some 0x202 := by decide
/-- KT-4. -/
theorem test_skip_key_up_index : after 0xE0A1 (ready [(0, 0xFF)]) (fun s => s.faultInfo) = some 0xFF := by decide
/-- KT-6, and a held key, KT-7 (S2). -/
theorem test_key_waits :
    after 0xF10A { ready [(1, 9)] with hostKey := keysDown [3], keyPrev := keysDown [3] } (fun s => (s.pc, reg s 1)) =
      some (0x200, 9) := by decide
/-- KT-9: the lowest fresh key, with a lower key held. -/
theorem test_key_takes :
    after 0xF10A { ready [] with hostKey := keysDown [5, 2, 1], keyPrev := keysDown [1] }
      (fun s => (s.pc, reg s 1, s.keyPrev)) = some (0x202, 2, keysDown [1, 2, 5]) := by decide
/-- KT-10. -/
theorem test_get_delay : after 0xF307 { ready [] with dt := 0x3C } (fun s => reg s 3) = some 0x3C := by decide
/-- KT-11, KT-16. -/
theorem test_set_delay :
    after 0xF015 (ready [(0, 3)]) (fun s => (s.dt, s.st)) = some (3, 0) ∧
    after 0xF015 { ready [] with dt := 9 } (fun s => s.dt) = some 0 := by decide
/-- KT-12. -/
theorem test_set_sound : after 0xF418 (ready [(4, 0x10)]) (fun s => (s.st, soundActive s)) = some (0x10, true) := by decide

/-! Events. -/

/-- KT-13, KT-14. -/
theorem test_tick :
    event .tick { ready [] with dt := 2, st := 1 } (fun s => (s.dt, s.st, soundActive s)) = some (1, 0, false) ∧
    event .tick (ready []) (fun s => (s.dt, s.st)) = some (0, 0) := by decide
/-- KT-15. -/
theorem test_tick_stopped : event .tick { State.reset with dt := 5 } (fun s => s.dt) = some 5 := by decide
/-- RC-1. -/
theorem test_reset :
    event .reset { ready [(3, 7)] with runState := .faulted, faultCause := some .keyIndex, dt := 5, mem := [(0x300, 1)] } id =
      some State.reset := by decide
/-- RC-2, with the last byte of memory; the font is not disturbed. -/
theorem test_load :
    event (.load [0x12, 0x00]) State.reset (fun s => (s.mem, s.loaded, readByte s 0x200, readByte s 0x050)) =
      some ([(0x200, 0x12)], true, 0x12, 0xF0) := by decide
/-- RC-5, RC-7: a refused Start leaves the core as it is. -/
theorem test_start_refused :
    event .start State.reset id = some State.reset ∧
    event .start { ready [] with runState := .faulted } (fun s => s.runState) = some .faulted := by decide
/-- RC-6. -/
theorem test_stop_and_start :
    event .stop { ready [] with dt := 5 } (fun s => (s.runState, s.dt)) = some (.stopped, 5) ∧
    event .start { ready [] with runState := .stopped } (fun s => s.runState) = some .running := by decide
/-- RC-8, and D1. -/
theorem test_key_events :
    event (.keyDown 4) { ready [] with runState := .faulted } (fun s => s.hostKey) = some (keysDown [4]) ∧
    event (.keyUp 4) { ready [] with hostKey := keysDown [4, 5] } (fun s => s.hostKey) = some (keysDown [5]) ∧
    refusalOf (step { State.reset with inputs := [.keyDown 16] }) = some .keyOutside := by decide
/-- R32, E5. -/
theorem test_pixel :
    event (.pixel 63 31) { ready [] with disp := flipPixel blankDisplay 63 31 } (fun s => s.outputs) =
      some [.pixel 63 31 true] ∧
    refusalOf (step { State.reset with inputs := [.pixel 64 0] }) = some .pixelOutside := by decide

/-! Witnesses: the hypotheses of each obligation that has some, met together. -/

/-- A running machine whose next word is `w`, at address `a`. -/
def running (a w : Word) (s : State) : State := { s with pc := a }.withFetchWord 16 w.toNat

/-- A faulted machine: return on an empty stack, then the fault of R204. -/
def faultedMachine : State := faultedState .stackUnderflow 0 0x00EE true (running 0x200 0x00EE (ready []))

theorem witness_DecodeOfEncode : (Instr.draw 2 3 5).wellFormed = true ∧ (Instr.sys 0x0EF).wellFormed = true := by decide

theorem witness_EncodeOfDecode : decodeWord 0xFF65 = .ok (.loadRegs 15) ∧ decodeWord 0x0000 = .ok (.sys 0) := by decide

/-- The three clauses of RowSelectedByMaskAndMatch: a row that is matched (one of them that of `sys`), a word that none
matches, and two instructions of one row. -/
theorem witness_RowSelected_row :
    (0x5AB0 : Word) &&& (patternOf (.skipEqReg 0 0)).1 = (patternOf (.skipEqReg 0 0)).2 ∧
    (0x00E1 : Word) &&& (patternOf (.sys 0)).1 = (patternOf (.sys 0)).2 ∧ (0x00E1 : Word) ≠ 0x00E0 ∧ (0x00E1 : Word) ≠ 0x00EE := by
  decide
theorem witness_RowSelected_none : ∀ i, (0x5AB1 : Word) &&& (patternOf i).1 ≠ (patternOf i).2 := by
  intro i
  cases i <;> simp only [patternOf] <;> decide
theorem witness_RowSelected_two :
    (0x8124 : Word) &&& (patternOf (.aluAdd 1 2)).1 = (patternOf (.aluAdd 1 2)).2 ∧
    (0x8124 : Word) &&& (patternOf (.aluAdd 3 4)).1 = (patternOf (.aluAdd 3 4)).2 ∧
    ¬ ((patternOf (.aluAdd 1 2)).2 = 0 ∨ (patternOf (.aluAdd 3 4)).2 = 0) := by decide

/-- The last word of memory, with no input listed and with a Step event listed. -/
theorem witness_StepRunsDecodedInstruction :
    (running 0xFFE 0x7003 (ready [])).runState = .running ∧ Fetches (running 0xFFE 0x7003 (ready [])) (.addImm 0 3) ∧
    (running 0xFFE 0x7003 (ready [])).inputs = [] ∧
    ({ running 0xFFE 0x7003 (ready []) with inputs := [.step, .tick] } : State).inputs = .step :: [.tick] :=
  ⟨rfl, ⟨by decide, by decide⟩, rfl, rfl⟩

/-- Both disjuncts of UnrecognisedWordsAndSysAreNoOps: an unrecognised word, and 0NNN next to 00E0. -/
theorem witness_NoOps :
    (∃ s : State, s.runState = .running ∧ s.inputs = [] ∧ s.pc.toNat + 1 < 4096 ∧
      readByte s s.pc.toNat ++ readByte s (s.pc.toNat + 1) = 0x5AB1#16 ∧
      ∀ i, (0x5AB1 : Word) &&& (patternOf i).1 ≠ (patternOf i).2) ∧
    (∃ s : State, s.runState = .running ∧ s.inputs = [] ∧ s.pc.toNat + 1 < 4096 ∧
      readByte s s.pc.toNat ++ readByte s (s.pc.toNat + 1) = 0x00E1#16 ∧
      0x00E1#16 &&& 0xF000 = 0 ∧ 0x00E1#16 ≠ 0x00E0 ∧ 0x00E1#16 ≠ 0x00EE) :=
  ⟨⟨running 0x200 0x5AB1 (ready []), rfl, rfl, by decide, by decide, witness_RowSelected_none⟩,
    ⟨running 0xFFE 0x00E1 (ready []), rfl, rfl, by decide, by decide, by decide, by decide, by decide⟩⟩

theorem witness_StepIdleUnlessRunning :
    State.reset.runState ≠ .running ∧ State.reset.inputs = [] ∧
    ({ faultedMachine with inputs := [.step] } : State).runState ≠ .running ∧
    ({ faultedMachine with inputs := [.step] } : State).inputs = .step :: [] :=
  ⟨by decide, rfl, by decide, rfl⟩

/-- Every clause of StepFaultsExactlyAsListed, at the boundary of its range: a fetch at 0xFFF, a range whose last byte is at
0x1000, an empty stack, a full stack, VX = 16; and a machine that no condition holds of. -/
theorem witness_Faults_fetch : FaultCondition { ready [] with pc := 0xFFF } 0x1000 .fetchBounds := by
  refine ⟨by decide, by decide, by decide, fun b h1 h2 => ?_⟩
  have : ({ ready [] with pc := 0xFFF } : State).pc.toNat = 0xFFF := by decide
  omega
theorem witness_Faults_mem : FaultCondition (running 0x200 0xF455 (readyAt 0xFFC [])) 0x1000 .memBounds := by
  refine ⟨.storeRegs 4, ⟨by decide, by decide⟩, by decide, by decide, by decide, fun b h1 h2 => ?_⟩
  omega
theorem witness_Faults_underflow : FaultCondition (running 0x200 0x00EE (ready [])) 0 .stackUnderflow :=
  ⟨⟨by decide, by decide⟩, rfl, rfl⟩
theorem witness_Faults_overflow :
    FaultCondition (running 0x200 0x2210 { ready [] with stack := List.replicate 16 0 }) 16 .stackOverflow :=
  ⟨0x210, ⟨by decide, by decide⟩, by decide, by decide⟩
theorem witness_Faults_key : FaultCondition (running 0x200 0xE1A1 (ready [(1, 16)])) 16 .keyIndex :=
  ⟨1, .inr ⟨by decide, by decide⟩, by decide, by decide⟩
theorem witness_Faults_none : ∀ f info, ¬ FaultCondition (running 0x200 0x7003 (ready [])) info f := by
  have hd : decodeWord (readByte (running 0x200 0x7003 (ready [])) (running 0x200 0x7003 (ready [])).pc.toNat ++
      readByte (running 0x200 0x7003 (ready [])) ((running 0x200 0x7003 (ready [])).pc.toNat + 1)) = .ok (.addImm 0 3) := by
    decide
  have hf : ∀ i, Fetches (running 0x200 0x7003 (ready [])) i → i = .addImm 0 3 := by
    rintro i ⟨-, h⟩
    rw [hd] at h
    cases h
    rfl
  intro f info h
  cases f with
  | fetchBounds =>
    have := (firstOutside_iff.1 h).2.1
    exact absurd this (by decide)
  | memBounds =>
    obtain ⟨i, hi, ho⟩ := h
    rw [hf i hi] at ho
    exact absurd (firstOutside_iff.1 ho).1 (by decide)
  | stackUnderflow => exact absurd (hf _ h.1) nofun
  | stackOverflow =>
    obtain ⟨nnn, hi, -⟩ := h
    exact absurd (hf _ hi) nofun
  | keyIndex =>
    obtain ⟨x, hi | hi, -⟩ := h <;> exact absurd (hf _ hi) nofun

/-- InstructionFaultsForItsOneCause; and, with `witness_exec_completes`, the hypotheses of RegistersWrittenAsListed,
ComponentsWrittenOnlyByTheirInstructions and PcMovesAsListed. -/
theorem witness_exec_faults :
    (ready []).runState ≠ .faulted ∧ ∃ t, exec .ret (ready []) = .next t ∧ t.runState = .faulted :=
  ⟨by decide, _, rfl, rfl⟩
theorem witness_exec_completes : ∃ t, exec (.addImm 0 3) (ready []) = .next t ∧ Safe t := ⟨_, rfl, by unfold Safe; decide⟩

theorem witness_ReturnPopsOrUnderflows :
    ({ ready [] with stack := [0x300, 0x206] } : State).stack = [0x300] ++ [0x206] ∧ (ready []).stack = [] := ⟨rfl, rfl⟩

/-- One entry short of full, and full. -/
theorem witness_CallPushesOrOverflows :
    ({ ready [] with stack := List.replicate 15 0 } : State).stack.length ≠
      ({ ready [] with stack := List.replicate 15 0 } : State).params.stackDepth ∧
    ({ ready [] with stack := List.replicate 16 0 } : State).stack.length =
      ({ ready [] with stack := List.replicate 16 0 } : State).params.stackDepth := by decide

theorem witness_ReturnUndoesCall :
    ∃ t u : State, exec (.call 0x210) (ready []) = .next t ∧ t.runState ≠ .faulted ∧ u.stack = t.stack :=
  ⟨_, { ready [] with stack := [0x202] }, rfl, by decide, by decide⟩

/-- n ≠ 0, the premise of the last clause of SkipsCompareRegisters. -/
theorem witness_SkipsCompareRegisters : (1 : Nibble) ≠ 0 ∧ (15 : Nibble) ≠ 0 := by decide

/-- X ≠ F, the premise of the flag clauses of AddSetsCarry, SubtractSetsNotBorrow and ShiftsInPlace. -/
theorem witness_x_ne_F : (14 : Nibble) ≠ 15 := by decide

theorem witness_FontCharSelectsGlyph : (ready []).params.wf = true := by decide

/-- The last address of the completing clause and the first of the faulting one: bcd, store-regs, load-regs. -/
theorem witness_BcdStoresDigits :
    Memory.wf (readyAt 0xFFD []).params (readyAt 0xFFD []).mem ∧ (readyAt 0xFFD []).index.toNat + 2 < 4096 ∧
    Memory.wf (readyAt 0xFFE []).params (readyAt 0xFFE []).mem ∧ 4096 ≤ (readyAt 0xFFE []).index.toNat + 2 := by decide
theorem witness_StoreRegsWritesRange :
    Memory.wf (readyAt 0xFFC []).params (readyAt 0xFFC []).mem ∧ (readyAt 0xFFC []).index.toNat + (3 : Nibble).toNat < 4096 ∧
    4096 ≤ (readyAt 0xFFC []).index.toNat + (4 : Nibble).toNat := by decide
theorem witness_LoadRegsReadsRange :
    (readyAt 0xFFF []).index.toNat + (0 : Nibble).toNat < 4096 ∧ 4096 ≤ (readyAt 0xFFF []).index.toNat + (1 : Nibble).toNat := by
  decide

/-- E8: the second state has the stored memory, the same I, and other registers. -/
theorem witness_StoreThenLoadRoundTrips :
    ∃ s t u : State, Memory.wf s.params s.mem ∧ exec (.storeRegs 1) s = .next t ∧ t.runState ≠ .faulted ∧
      (∀ a, readByte u a = readByte t a) ∧ u.index = s.index ∧ reg u 0 ≠ reg s 0 :=
  ⟨readyAt 0x400 [(0, 0x11), (1, 0x22)], _,
    { readyAt 0x400 [] with mem := [(0x400, 0x11), (0x401, 0x22)] }, by decide, rfl, by decide,
    readByte_congr (by decide) (by decide), by decide, by decide⟩

/-- The store of program P6, whose next fetch is at the stored bytes: V0 V1 = 12 08 is JP 0x208. -/
theorem witness_StoredCodeIsFetchedNext :
    ∃ s t : State, Memory.wf s.params s.mem ∧ exec (.storeRegs 1) s = .next t ∧ t.runState = .running ∧ t.inputs = [] ∧
      (0 : Nibble) < 1 ∧ t.pc.toNat = s.index.toNat + (0 : Nibble).toNat ∧
      decodeWord (reg s 0 ++ reg s (0 + 1)) = .ok (.jump 0x208) :=
  ⟨{ readyAt 0x208 [(0, 0x12), (1, 0x08)] with pc := 0x206 }, _, by decide, rfl, rfl, rfl, by decide, by decide, by decide⟩

/-- No rows, the last row inside memory, and the first outside it. -/
theorem witness_DrawFlipsVisibleSpritePixels :
    ((0 : Nibble) = 0 ∨ (readyAt 0xFFF []).index.toNat + (0 : Nibble).toNat ≤ 4096) ∧
    ((1 : Nibble) = 0 ∨ (readyAt 0xFFF []).index.toNat + (1 : Nibble).toNat ≤ 4096) ∧
    (2 : Nibble) ≠ 0 ∧ 4096 < (readyAt 0xFFF []).index.toNat + (2 : Nibble).toNat := by decide
/-- The premises of the two flag clauses: a pixel that a draw turns off, and a draw that turns none off. -/
theorem witness_Draw_collision :
    ∃ s t : State, exec (.draw 0 0 1) s = .next t ∧ pixelAt s.disp 3 0 = true ∧ pixelAt t.disp 3 0 = false :=
  ⟨{ readyAt 0x050 [] with disp := flipPixel blankDisplay 3 0 }, _, rfl, by decide, by decide⟩
theorem witness_Draw_no_collision :
    ∃ t : State, exec (.draw 0 0 1) (readyAt 0x050 []) = .next t ∧
      ∀ px py, px < 64 → py < 32 → pixelAt (readyAt 0x050 []).disp px py = true → pixelAt t.disp px py = true :=
  ⟨_, rfl, fun px py _ _ h => absurd ((pixelAt_blank px py).symm.trans h) nofun⟩
theorem witness_DrawingTwiceRestoresDisplay :
    ∃ s t u : State, exec (.draw 0 1 5) s = .next t ∧ t.runState ≠ .faulted ∧ u.disp = t.disp ∧
      (∀ a, readByte u a = readByte s a) ∧ u.index = s.index ∧ reg u 0 = reg s 0 ∧ reg u 1 = reg s 1 :=
  ⟨readyAt 0x050 [], _, { readyAt 0x050 [] with
    disp := (drawPixels (drawTargets 0 1 5 (readyAt 0x050 [])) (blankDisplay, false)).1 },
    rfl, by decide, rfl, fun _ => rfl, rfl, rfl, rfl⟩

/-- VX = 15, the last key, and VX = 16. -/
theorem witness_KeySkipsTestHostKey : (reg (ready [(1, 15)]) 1).toNat < 16 ∧ 15 < (reg (ready [(1, 16)]) 1).toNat := by decide

/-- Key 15 is fresh and every lower key that is down is held; and no key is fresh. -/
theorem witness_KeyWait_takes :
    (keysDown [3, 15])[(15 : Fin 16)] = true ∧ (keysDown [3])[(15 : Fin 16)] = false ∧
    ∀ j : Fin 16, j < 15 → (keysDown [3, 15])[j] = true → (keysDown [3])[j] = true := by decide
theorem witness_KeyWait_waits : ∀ k : Fin 16, (keysDown [3])[k] = true → (keysDown [3])[k] = true := by decide

theorem witness_TickDecrementsTimers :
    ({ ready [] with dt := 2, inputs := [.tick] } : State).inputs = .tick :: [] ∧
    ({ ready [] with dt := 2, inputs := [.tick] } : State).runState = .running ∧
    ({ State.reset with inputs := [.tick] } : State).inputs = .tick :: [] ∧
    ({ State.reset with inputs := [.tick] } : State).runState ≠ .running := ⟨rfl, rfl, rfl, by decide⟩
theorem witness_TicksNeverGoBelowZero :
    ({ ready [] with inputs := [.tick, .tick, .tick, .step] } : State).runState = .running ∧
    ({ ready [] with inputs := [.tick, .tick, .tick, .step] } : State).inputs = List.replicate 3 .tick ++ [.step] := ⟨rfl, rfl⟩
theorem witness_TickCommutes :
    (∀ x, Instr.addImm 0 3 ≠ .getDelay x ∧ Instr.addImm 0 3 ≠ .setDelay x ∧ Instr.addImm 0 3 ≠ .setSound x) ∧
    (ready []).runState = .running ∧ ∃ t, exec (.addImm 0 3) (ready []) = .next t ∧ Safe t :=
  ⟨fun _ => ⟨nofun, nofun, nofun⟩, rfl, _, rfl, by unfold Safe; decide⟩

/-- The last key, and the first that is none. -/
theorem witness_KeyEventsWriteOneFlag :
    ({ State.reset with inputs := [.keyDown 15] } : State).inputs = (if true then .keyDown 15 else .keyUp 15) :: [] ∧ 15 < 16 ∧
    ({ State.reset with inputs := [.keyUp 16] } : State).inputs = (if false then .keyDown 16 else .keyUp 16) :: [] ∧ 16 ≤ 16 :=
  ⟨rfl, by decide, rfl, by decide⟩

/-- A ROM of 3584 bytes, one of 3585, and a Load that is not admitted. -/
theorem witness_LoadCopiesRom :
    ({ State.reset with inputs := [.load (List.replicate 3584 7)] } : State).inputs = .load (List.replicate 3584 7) :: [] ∧
    Memory.wf State.reset.params State.reset.mem ∧ State.reset.runState = .stopped ∧ State.reset.loaded = false ∧
    (List.replicate 3584 (7 : Byte)).length ≤ 3584 ∧ 3584 < (List.replicate 3585 (7 : Byte)).length ∧
    (ready []).runState ≠ .stopped := by
  exact ⟨rfl, by decide, rfl, rfl, by rw [List.length_replicate], by rw [List.length_replicate]; decide, by decide⟩

theorem witness_StartAndStop :
    ({ State.reset with loaded := true, inputs := [.start] } : State).inputs = .start :: [] ∧
    ({ State.reset with loaded := true, inputs := [.start] } : State).runState = .stopped ∧
    ({ State.reset with loaded := true, inputs := [.start] } : State).loaded = true ∧
    (State.reset.runState ≠ .stopped ∨ State.reset.loaded = false) ∧
    (faultedMachine.runState ≠ .stopped ∨ faultedMachine.loaded = false) ∧
    ({ ready [] with inputs := [.stop] } : State).inputs = .stop :: [] ∧
    ({ ready [] with inputs := [.stop] } : State).runState = .running ∧ State.reset.runState ≠ .running :=
  ⟨rfl, rfl, rfl, by decide, by decide, rfl, rfl, by decide⟩

theorem witness_ResetSetsEveryComponent :
    ({ faultedMachine with inputs := [.reset, .step] } : State).inputs = .reset :: [.step] := rfl

theorem witness_BootExecutesAtResetVector :
    ({ faultedMachine with inputs := [.reset, .load [0x60, 0x05], .start, .step] } : State).inputs =
      [.reset, .load (0x60 :: 0x05 :: []), .start, .step] ++ [] ∧ ((0x60 : Byte) :: 0x05 :: []).length ≤ 3584 ∧
    decodeWord ((0x60 : Byte) ++ (0x05 : Byte)) = .ok (.setImm 0 0x05) := ⟨rfl, by decide, by decide⟩

/-- A faulted machine that takes an event, and one that takes each of the events named. -/
theorem witness_FaultedUntilReset :
    ({ faultedMachine with inputs := [.keyDown 4] } : State).runState = .faulted ∧
    (∀ rest, ({ faultedMachine with inputs := [.keyDown 4] } : State).inputs ≠ .reset :: rest) ∧
    (∃ t, step { faultedMachine with inputs := [.keyDown 4] } = .next t) ∧
    (∀ e, ({ faultedMachine with inputs := [e] } : State).inputs = e :: []) :=
  ⟨rfl, nofun, ⟨_, rfl⟩, fun _ => rfl⟩

/-- The last pixel, and the first outside on either side. -/
theorem witness_PixelQueryAnswers :
    ({ State.reset with inputs := [.pixel 63 31] } : State).inputs = .pixel 63 31 :: [] ∧ 63 < 64 ∧ 31 < 32 ∧
    (64 ≤ 64 ∨ 32 ≤ 0) ∧ (64 ≤ 0 ∨ 32 ≤ 32) := ⟨rfl, by decide, by decide, by decide, by decide⟩

theorem witness_ResetMeetsInvariant : ({ suggestedParams with stackDepth := 1, fontBase := 0x1B0 } : Params).wf = true := by decide

/-- Running, stopped and faulted machines that meet the invariant, and a step of each. -/
theorem witness_StepKeepsInvariant :
    Inv (running 0x200 0x00EE (ready [])) ∧ Inv faultedMachine ∧ (∃ t, step (running 0x200 0x00EE (ready [])) = .next t) ∧
    ∃ t, step faultedMachine = .next t :=
  ⟨⟨by decide, by decide, by decide, fun _ => rfl, ⟨by decide, rfl, rfl, rfl, rfl⟩⟩,
    ⟨by decide, by decide, by decide, fun _ => rfl, ⟨rfl, rfl, rfl, rfl, .ret, by decide, rfl⟩⟩, ⟨_, rfl⟩, ⟨_, rfl⟩⟩

/-- A running machine and a faulted one, each with a Step listed. -/
theorem witness_ListedStepActsAsUnlisted :
    ({ running 0x200 0x5AB1 (ready []) with inputs := [.step, .tick] } : State).inputs = .step :: [.tick] ∧
    ({ faultedMachine with inputs := [.step] } : State).inputs = .step :: [] := ⟨rfl, rfl⟩

/-- bcd of 156 writes 01 05 06: pc on the first digit, then on the second; the words are SYS 0x105 and SYS 0x506. -/
theorem witness_StoredDigitsAreFetchedNext :
    (∃ s t : State, Memory.wf s.params s.mem ∧ exec (.bcd 0) s = .next t ∧ t.runState = .running ∧ t.inputs = [] ∧
      t.pc.toNat = s.index.toNat ∧ (0x01 : Byte).toNat = (reg s 0).toNat / 100 ∧
      (0x05 : Byte).toNat = (reg s 0).toNat / 10 % 10 ∧ decodeWord ((0x01 : Byte) ++ (0x05 : Byte)) = .ok (.sys 0x105)) ∧
    (∃ s t : State, Memory.wf s.params s.mem ∧ exec (.bcd 0) s = .next t ∧ t.runState = .running ∧ t.inputs = .step :: [] ∧
      t.pc.toNat = s.index.toNat + 1 ∧ (0x05 : Byte).toNat = (reg s 0).toNat / 10 % 10 ∧
      (0x06 : Byte).toNat = (reg s 0).toNat % 10 ∧ decodeWord ((0x05 : Byte) ++ (0x06 : Byte)) = .ok (.sys 0x506)) :=
  ⟨⟨{ readyAt 0x300 [(0, 156)] with pc := 0x2FE }, _, by decide, rfl, rfl, rfl, by decide, by decide, by decide, by decide⟩,
    ⟨{ readyAt 0x300 [(0, 156)] with pc := 0x2FF, inputs := [.step] }, _, by decide, rfl, rfl, rfl, by decide, by decide,
      by decide, by decide⟩⟩

/-! What the host asks: each word, placed where the next step fetches, is decoded and run as the first instruction. -/

theorem test_first_instruction :
    (nextOf (step (State.reset.withFetchWord 16 0x6005))).map (fun s => (reg s 0, s.pc)) = some (0x05, 0x202) ∧
    (nextOf (step (State.reset.withFetchWord 16 0x00EE))).map faultRegs = some (3, 0x200, 0x00EE, true, 0) := by decide

end Sys2Proof.Tests
end

/-!
PROOFS. The invariant of a safe machine (O53, O54): the reset state meets it, and every event of the host keeps it. Beside that,
what the fault registers' clause needs: the word that a fault records decodes to the instruction that raised it.
-/

namespace Sys2Proof

/-! The word of an instruction decodes to it, format by format (R72, R76). -/

/-- A word of major opcode 0 is tested for `clear` and `ret` first (R76). -/
theorem decodeWord_sys {nnn : Addr} (h : (Instr.sys nnn).wellFormed = true) :
    decodeWord (encode (.sys nnn)) = .ok (.sys nnn) := by
  obtain ⟨hclear, hret⟩ : nnn ≠ 0x0E0 ∧ nnn ≠ 0x0EE := by simpa [Instr.wellFormed] using h
  refine (decodeWord_formatA 0x0#4 nnn).trans ?_
  change Except.ok (decodeFamily0 _) = _
  rw [decodeFamily0, if_neg hclear, if_neg hret]

theorem decodeWord_encode {i : Instr} (h : i.wellFormed = true) : decodeWord (encode i) = .ok i := by
  cases i with
  | clear | ret => rfl
  | sys nnn => exact decodeWord_sys h
  | jump nnn | call nnn | setIndex nnn | jumpOffset nnn => exact (decodeWord_formatA _ nnn).trans rfl
  | skipEqImm x nn | skipNeImm x nn | setImm x nn | addImm x nn | random x nn =>
    exact (decodeWord_formatXI _ x nn).trans rfl
  | skipKeyDown x | skipKeyUp x | getDelay x | getKeyBlocking x | setDelay x | setSound x | addToIndex x | fontChar x
  | bcd x | storeRegs x | loadRegs x => exact (decodeWord_formatXI _ x _).trans rfl
  | skipEqReg x y | aluCopy x y | aluOr x y | aluAnd x y | aluXor x y | aluAdd x y | aluSub x y | aluShr x y
  | aluSubn x y | aluShl x y | skipNeReg x y => exact (decodeWord_formatXY _ x y _).trans rfl
  | draw x y n => exact (decodeWord_formatXY _ x y n).trans rfl

end Sys2Proof

namespace Sys2Proof.Machine

/-! The instructions that can fault (R200). -/

/-- The word of an instruction that can fault is its own: only `sys` shares words with another row, and it raises nothing. -/
theorem decodeWord_encode_of_faultOf {i : Instr} {f : Fault} (h : faultOf i = some f) :
    decodeWord (encode i) = .ok i := by
  apply decodeWord_encode
  cases i with
  | sys nnn => cases h
  | _ => rfl

/-- No execute phase raises the fault of the fetch (R91). -/
theorem faultOf_ne_fetchBounds (i : Instr) : faultOf i ≠ some .fetchBounds := by
  cases i <;> exact nofun

/-- FAULT_INFO's 17 bits hold every information, STACK_DEPTH included (R37, R200; assumption log 2). -/
theorem infoInRange_ofNat {p : Params} {info : Nat} {f : Fault} (hp : p.wf = true) (h : InfoInRange p info f) :
    InfoInRange p (BitVec.ofNat 17 info).toNat f := by
  have hdepth : p.stackDepth < 2 ^ 17 := by
    simp only [Params.wf, Bool.and_eq_true, decide_eq_true_eq] at hp
    exact hp.1.2
  have hlt : info < 2 ^ 17 := by
    cases f <;> simp only [InfoInRange] at h <;> omega
  rwa [BitVec.toNat_ofNat, Nat.mod_eq_of_lt hlt]

/-! What the fault registers tell. -/

/-- In a core that has not faulted, they tell the truth exactly when all are zero. -/
theorem faultRegsTell_iff_zero {s : State} (h : s.runState ≠ .faulted) :
    FaultRegsTell s ↔ s.faultCause = none ∧ s.faultPc = 0 ∧ s.faultOpcode = 0 ∧ s.faultOpcodeValid = false ∧
      s.faultInfo = 0 := by
  unfold FaultRegsTell
  cases s.faultCause with
  | none => simp [h]
  | some f => simp [h]

theorem faultRegsTell_of_kept {s t : State} (h : FaultRegsTell s) (hs : s.runState ≠ .faulted) (hk : FaultRegsKept s t) :
    FaultRegsTell t := by
  obtain ⟨hrun, hcause, hpc, hop, hvalid, hinfo⟩ := hk
  rw [faultRegsTell_iff_zero (by rwa [hrun]), hcause, hpc, hop, hvalid, hinfo]
  exact (faultRegsTell_iff_zero hs).1 h

/-- A fetch fault records no word, and the address it could not read (R91, R204). -/
theorem faultRegsTell_fetchFault {s : State} {a : Nat} (hp : s.params.wf = true)
    (ha : InfoInRange s.params a .fetchBounds) : FaultRegsTell (takeFault .fetchBounds a none s) :=
  ⟨rfl, rfl, infoInRange_ofNat hp ha, rfl, rfl⟩

/-- A fault of the execute phase records the word of an instruction that can raise it (R204). -/
theorem faultRegsTell_execFault {s : State} {i : Instr} {f : Fault} {info : Nat} (hp : s.params.wf = true)
    (hf : faultOf i = some f) (hinfo : InfoInRange s.params info f) :
    FaultRegsTell (takeFault f info (some (encode i)) s) := by
  have hne : f ≠ .fetchBounds := fun e => faultOf_ne_fetchBounds i (e ▸ hf)
  refine ⟨rfl, rfl, infoInRange_ofNat hp hinfo, ?_⟩
  rw [if_neg hne]
  exact ⟨rfl, i, decodeWord_encode_of_faultOf hf, hf⟩

/-! The updates that keep the invariant. -/

section
variable {s u : State}

/-- The invariant does not look at the timers, the keys, or the model's own history. -/
theorem Inv.update (hi : Inv s) (dt st : Byte) (hostKey keyPrev : Keys) (draws : Nat) (inputs : List Event)
    (outputs : List Output) :
    Inv { s with dt := dt, st := st, hostKey := hostKey, keyPrev := keyPrev, draws := draws, inputs := inputs,
                 outputs := outputs } :=
  ⟨hi.params, hi.mem, hi.stack, hi.loaded, hi.faultRegs⟩

/-- A core that has not faulted starts, once it is loaded, or stops (R244, R245). -/
theorem Inv.setRunState (hi : Inv s) {r : RunState} (hs : s.runState ≠ .faulted) (hr : r ≠ .faulted)
    (hl : r ≠ .stopped → s.loaded = true) : Inv (setRunState r s) :=
  ⟨hi.params, hi.mem, hi.stack, hl, (faultRegsTell_iff_zero hr).2 ((faultRegsTell_iff_zero hs).1 hi.faultRegs)⟩

/-- A step that completes keeps the invariant: what every execute phase keeps, and KeyPrev is not looked at (R93). -/
theorem Inv.retire_of_kept (hi : Inv s) (hs : s.runState ≠ .faulted) (hk : Kept s u) : Inv (retire u) := by
  obtain ⟨hhost, hregs, hmem, hstack⟩ := hk
  have hu : Inv u := by
    refine ⟨?_, ?_, ?_, ?_, faultRegsTell_of_kept hi.faultRegs hs hregs⟩
    · rw [hhost.params]; exact hi.params
    · rw [hhost.params]; exact hmem hi.mem
    · rw [hhost.params]; exact hstack hi.stack
    · rw [hregs.runState, hhost.loaded]; exact hi.loaded
  exact hu.update ..

/-- Taking a fault keeps the invariant when the registers it writes tell the truth: a core that runs is loaded (R204, R244). -/
theorem Inv.takeFault (hi : Inv s) (hrun : s.runState = .running) {f : Fault} {info : Nat} {op : Option Word}
    (h : FaultRegsTell (takeFault f info op s)) : Inv (takeFault f info op s) :=
  ⟨hi.params, hi.mem, hi.stack, fun _ => hi.loaded (by simp [hrun]), h⟩

end

/-- R240: the reset state meets the invariant, whatever the parameters are. -/
theorem inv_resetWith {p : Params} (hp : p.wf = true) : Inv (State.resetWith p) :=
  ⟨hp, reset_memory_wf p, Nat.zero_le _, fun h => absurd rfl h, nofun, rfl, rfl, rfl, rfl⟩

/-! The events, one by one (R38). -/

section
variable {s t : State}

theorem exec_keeps_inv (i : Instr) (hi : Inv s) (hrun : s.runState = .running) (h : exec i s = .next t) : Inv t := by
  obtain ⟨u, hu, hk⟩ | ⟨f, info, hf, hinfo, hu⟩ := exec_answers i s
  · obtain rfl : retire u = t := by simpa [hu] using h
    exact hi.retire_of_kept (by simp [hrun]) hk
  · obtain rfl : takeFault f info (some (encode i)) s = t := by simpa [hu] using h
    exact hi.takeFault hrun (faultRegsTell_execFault hi.params hf hinfo)

theorem runInstruction_keeps_inv (hi : Inv s) (hrun : s.runState = .running) (h : runInstruction s = .next t) : Inv t := by
  obtain ⟨hpc, hu⟩ | ⟨i, -, hu⟩ | ⟨-, -, hu⟩ := runInstruction_cases s
  · rw [hu] at h
    cases h
    refine hi.takeFault hrun (faultRegsTell_fetchFault hi.params ?_)
    have := s.pc.isLt
    constructor <;> split <;> omega
  · exact exec_keeps_inv i hi hrun (hu ▸ h)
  · rw [hu] at h
    cases h
    exact hi.retire_of_kept (by simp [hrun]) (kept_advance s)

theorem eventStep_keeps_inv (hi : Inv s) (h : eventStep s = .next t) : Inv t := by
  by_cases hrun : s.runState = .running
  · exact runInstruction_keeps_inv hi hrun (eventStep_of_running hrun ▸ h)
  · rw [eventStep_of_not_running hrun] at h
    cases h
    exact hi

theorem eventTick_keeps_inv (hi : Inv s) (h : eventTick s = .next t) : Inv t := by
  unfold eventTick at h
  split at h <;> cases h
  · exact hi.update ..
  all_goals exact hi

/-- R206, R240: a Reset keeps the parameters and puts all else back. -/
theorem eventReset_keeps_inv (hi : Inv s) (h : eventReset s = .next t) : Inv t := by
  cases h
  exact (inv_resetWith hi.params).update ..

/-- R243: a ROM that fits stays inside memory, one that does not is not written. -/
theorem eventLoad_keeps_inv {bytes : List Byte} (hi : Inv s) (h : eventLoad bytes s = .next t) : Inv t := by
  unfold eventLoad at h
  split_ifs at h with hadmitted hlong <;> cases h
  · exact hi.update ..
  · have hmem : Memory.wf s.params (writeBytes progBase bytes s).mem :=
      writeBytes_wf hi.mem (by simp only [romMax, progBase, memSize] at *; omega)
    rw [writeBytes_eq]
    exact ⟨hi.params, hmem, hi.stack, fun _ => rfl, hi.faultRegs⟩

theorem eventStart_keeps_inv (hi : Inv s) (h : eventStart s = .next t) : Inv t := by
  unfold eventStart at h
  split_ifs at h with hstart <;> cases h
  · obtain ⟨hstopped, hloaded⟩ := hstart
    exact hi.setRunState (by simp [hstopped]) nofun fun _ => hloaded
  · exact hi

theorem eventStop_keeps_inv (hi : Inv s) (h : eventStop s = .next t) : Inv t := by
  unfold eventStop at h
  split at h <;> cases h
  case h_1 hrun => exact hi.setRunState (by simp [hrun]) nofun fun hne => absurd rfl hne
  all_goals exact hi

theorem eventKey_keeps_inv {k : Nat} {down : Bool} (hi : Inv s) (h : eventKey k down s = .next t) : Inv t := by
  unfold eventKey at h
  split_ifs at h
  cases h
  exact hi.update ..

theorem eventPixel_keeps_inv {x y : Nat} (hi : Inv s) (h : eventPixel x y s = .next t) : Inv t := by
  unfold eventPixel at h
  split_ifs at h
  cases h
  exact hi.update ..

theorem applyEvent_keeps_inv {e : Event} (hi : Inv s) (h : applyEvent e s = .next t) : Inv t := by
  cases e with
  | step => exact eventStep_keeps_inv hi h
  | tick => exact eventTick_keeps_inv hi h
  | reset => exact eventReset_keeps_inv hi h
  | load bytes => exact eventLoad_keeps_inv hi h
  | start => exact eventStart_keeps_inv hi h
  | stop => exact eventStop_keeps_inv hi h
  | keyDown k => exact eventKey_keeps_inv hi h
  | keyUp k => exact eventKey_keeps_inv hi h
  | pixel x y => exact eventPixel_keeps_inv hi h

/-- One event, listed or not, keeps the invariant (R59, R222). -/
theorem step_keeps_inv (hi : Inv s) (h : step s = .next t) : Inv t := by
  cases hin : s.inputs with
  | nil => exact eventStep_keeps_inv hi (step_of_no_inputs hin ▸ h)
  | cons e rest => exact applyEvent_keeps_inv (hi.update ..) (step_of_input hin ▸ h)

end

/-- Settles O53, from the invariant of a reset with any parameters and the suggested ones (R9, R240). -/
theorem resetMeetsInvariant : Obligations.ResetMeetsInvariant :=
  ⟨inv_resetWith (by decide), fun _ => inv_resetWith⟩

/-- Settles O54, by the kind of the next event; for a Step by what its instruction can do, complete or take its one fault. -/
theorem stepKeepsInvariant : Obligations.StepKeepsInvariant := fun _ _ => step_keeps_inv

end Sys2Proof.Machine

/-!
PROOFS. The state and its frame (O11 to O13, O17, O42, O43, O45, O48, O51, O52): which components and which registers an
instruction may write, where pc goes, and what the host's events do to the state.
-/

namespace Sys2Proof.Machine

/-! What each named update leaves unchanged, component by component (R20). -/

section
variable {c : Component} {s u : State}

theorem Unchanged.advance (h : Unchanged c s u) : Unchanged c s (advance u) := by cases c <;> exact h

theorem Unchanged.retire (h : Unchanged c s u) : Unchanged c s (retire u) := by cases c <;> exact h

theorem Unchanged.setPc {w : Word} (h : Unchanged c s u) : Unchanged c s (setPc w u) := by cases c <;> exact h

theorem Unchanged.takeFault {f : Fault} {info : Nat} {op : Option Word} (h : Unchanged c s u) :
    Unchanged c s (takeFault f info op u) := by cases c <;> exact h

theorem Unchanged.setReg {x : Nibble} {b : Byte} (hc : c ≠ .regs) (h : Unchanged c s u) :
    Unchanged c s (setReg x b u) := by
  cases c with
  | regs => exact absurd rfl hc
  | _ => exact h

theorem Unchanged.setRegsFrom {k : Nat} {l : List Byte} (hc : c ≠ .regs) (h : Unchanged c s u) :
    Unchanged c s (setRegsFrom k l u) := by
  rw [setRegsFrom_eq]
  cases c with
  | regs => exact absurd rfl hc
  | _ => exact h

theorem Unchanged.writeBytes {a : Nat} {l : List Byte} (hc : c ≠ .mem) (h : Unchanged c s u) :
    Unchanged c s (writeBytes a l u) := by
  rw [writeBytes_eq]
  cases c with
  | mem => exact absurd rfl hc
  | _ => exact h

theorem Unchanged.setIndexReg {w : Word} (hc : c ≠ .index) (h : Unchanged c s u) :
    Unchanged c s (setIndexReg w u) := by
  cases c with
  | index => exact absurd rfl hc
  | _ => exact h

theorem Unchanged.setStack {l : List Word} (hc : c ≠ .stack) (h : Unchanged c s u) : Unchanged c s (setStack l u) := by
  cases c with
  | stack => exact absurd rfl hc
  | _ => exact h

theorem Unchanged.setDelayTimer {b : Byte} (hc : c ≠ .delay) (h : Unchanged c s u) :
    Unchanged c s (setDelayTimer b u) := by
  cases c with
  | delay => exact absurd rfl hc
  | _ => exact h

theorem Unchanged.setSoundTimer {b : Byte} (hc : c ≠ .sound) (h : Unchanged c s u) :
    Unchanged c s (setSoundTimer b u) := by
  cases c with
  | sound => exact absurd rfl hc
  | _ => exact h

theorem Unchanged.setDisp {d : Display} (hc : c ≠ .display) (h : Unchanged c s u) : Unchanged c s (setDisp d u) := by
  cases c with
  | display => exact absurd rfl hc
  | _ => exact h

theorem Unchanged.countDraw (hc : c ≠ .draws) (h : Unchanged c s u) : Unchanged c s (countDraw u) := by
  cases c with
  | draws => exact absurd rfl hc
  | _ => exact h

theorem Unchanged.skip (b : Bool) (h : Unchanged c s u) :
    Unchanged c s (if b then Machine.advance (Machine.advance u) else Machine.advance u) := by
  cases b
  · exact h.advance
  · exact h.advance.advance

end

/-! The inversion of `exec` at each instruction that can fault or wait, or whose writes depend on a test: from its equations
in Laws, the states it can answer. -/

section
variable {s t : State}

/-- An instruction answers one state. -/
theorem next_inj {i : Instr} {u : State} (hu : exec i s = .next u) (h : exec i s = .next t) : t = u := by
  simpa [hu] using h.symm

theorem exec_ret_inv (h : exec .ret s = .next t) :
    (∃ w, s.stack.getLast? = some w ∧ t = retire (setPc w (setStack s.stack.dropLast (advance s)))) ∨
    t = takeFault .stackUnderflow 0 (some (encode .ret)) s := by
  cases hw : s.stack.getLast? with
  | some w => exact .inl ⟨w, rfl, next_inj (exec_ret_completes hw) h⟩
  | none => exact .inr (next_inj (exec_ret_faults hw) h)

theorem exec_call_inv {nnn : Addr} (h : exec (.call nnn) s = .next t) :
    t = retire (setPc (addrWord nnn) (setStack (s.stack ++ [(advance s).pc]) (advance s))) ∨
    s.stack.length = s.params.stackDepth ∧
      t = takeFault .stackOverflow s.params.stackDepth (some (encode (.call nnn))) s := by
  by_cases hd : s.stack.length = s.params.stackDepth
  · exact .inr ⟨hd, next_inj (exec_call_faults hd) h⟩
  · exact .inl (next_inj (exec_call_completes hd) h)

theorem exec_skipKeyDown_inv {x : Nibble} (h : exec (.skipKeyDown x) s = .next t) :
    t = retire (if keyAt s.hostKey (reg s x).toNat then advance (advance s) else advance s) ∨
    t = takeFault .keyIndex (reg s x).toNat (some (encode (.skipKeyDown x))) s := by
  by_cases hk : 15 < (reg s x).toNat
  · exact .inr (next_inj (exec_skipKeyDown_faults hk) h)
  · exact .inl (next_inj (exec_skipKeyDown_completes hk) h)

theorem exec_skipKeyUp_inv {x : Nibble} (h : exec (.skipKeyUp x) s = .next t) :
    t = retire (if !keyAt s.hostKey (reg s x).toNat then advance (advance s) else advance s) ∨
    t = takeFault .keyIndex (reg s x).toNat (some (encode (.skipKeyUp x))) s := by
  by_cases hk : 15 < (reg s x).toNat
  · exact .inr (next_inj (exec_skipKeyUp_faults hk) h)
  · exact .inl (next_inj (exec_skipKeyUp_completes hk) h)

theorem exec_getKeyBlocking_inv {x : Nibble} (h : exec (.getKeyBlocking x) s = .next t) :
    t = retire (setPc ((advance s).pc - 2) (advance s)) ∨ ∃ b, t = retire (setReg x b (advance s)) := by
  cases hk : freshKeys s with
  | nil => exact .inl (next_inj (exec_getKeyBlocking_waits hk) h)
  | cons k ks => exact .inr ⟨_, next_inj (exec_getKeyBlocking_takes hk) h⟩

theorem exec_addToIndex_inv {x : Nibble} (h : exec (.addToIndex x) s = .next t) :
    ∃ w, t = retire (setIndexReg w (advance s)) ∨ t = retire (setReg vf 1 (setIndexReg w (advance s))) := by
  by_cases ho : indexOverflow (indexSum s.index (reg s x)) = true
  · exact ⟨_, .inr (next_inj (exec_addToIndex_overflows ho) h)⟩
  · exact ⟨_, .inl (next_inj (exec_addToIndex_stays ho) h)⟩

theorem exec_draw_inv {x y n : Nibble} (h : exec (.draw x y n) s = .next t) :
    (∃ b d, t = retire (setReg vf b (setDisp d (advance s)))) ∨
    ∃ a, t = takeFault .memBounds a (some (encode (.draw x y n))) s := by
  cases ha : accessFault s n.toNat with
  | none => exact .inl ⟨_, _, next_inj (exec_draw_completes ha) h⟩
  | some a => exact .inr ⟨a, next_inj (exec_draw_faults ha) h⟩

theorem exec_bcd_inv {x : Nibble} (h : exec (.bcd x) s = .next t) :
    t = retire (writeBytes (effAddr s 0) (bcdDigits (reg s x)) (advance s)) ∨
    ∃ a, t = takeFault .memBounds a (some (encode (.bcd x))) s := by
  cases ha : accessFault s 3 with
  | none => exact .inl (next_inj (exec_bcd_completes ha) h)
  | some a => exact .inr ⟨a, next_inj (exec_bcd_faults ha) h⟩

theorem exec_storeRegs_inv {x : Nibble} (h : exec (.storeRegs x) s = .next t) :
    t = retire (writeBytes (effAddr s 0) (regRange s x) (advance s)) ∨
    ∃ a, t = takeFault .memBounds a (some (encode (.storeRegs x))) s := by
  cases ha : accessFault s (rangeCount x) with
  | none => exact .inl (next_inj (exec_storeRegs_completes ha) h)
  | some a => exact .inr ⟨a, next_inj (exec_storeRegs_faults ha) h⟩

theorem exec_loadRegs_inv {x : Nibble} (h : exec (.loadRegs x) s = .next t) :
    t = retire (setRegsFrom 0 (bytesAtIndex s (rangeCount x)) (advance s)) ∨
    ∃ a, t = takeFault .memBounds a (some (encode (.loadRegs x))) s := by
  cases ha : accessFault s (rangeCount x) with
  | none => exact .inl (next_inj (exec_loadRegs_completes ha) h)
  | some a => exact .inr ⟨a, next_inj (exec_loadRegs_faults ha) h⟩

end

/-! The components an instruction may write beside pc and KeyPrev. -/

/-- The components that the rules of R25 to R31 name for each instruction, V and the random draw among them. -/
def written : Instr → List Component
  | .clear => [.display]
  | .ret | .call _ => [.stack]
  | .sys _ | .jump _ | .jumpOffset _ | .skipEqImm _ _ | .skipNeImm _ _ | .skipEqReg _ _ | .skipNeReg _ _
  | .skipKeyDown _ | .skipKeyUp _ => []
  | .setImm _ _ | .addImm _ _ | .aluCopy _ _ | .aluOr _ _ | .aluAnd _ _ | .aluXor _ _ | .aluAdd _ _ | .aluSub _ _
  | .aluShr _ _ | .aluSubn _ _ | .aluShl _ _ | .getDelay _ | .getKeyBlocking _ | .loadRegs _ => [.regs]
  | .setIndex _ | .fontChar _ => [.index]
  | .addToIndex _ => [.regs, .index]
  | .random _ _ => [.regs, .draws]
  | .draw _ _ _ => [.regs, .display]
  | .setDelay _ => [.delay]
  | .setSound _ => [.sound]
  | .bcd _ | .storeRegs _ => [.mem]

theorem mem_mem_written {i : Instr} : .mem ∈ written i ↔ ∃ x, i = .bcd x ∨ i = .storeRegs x := by
  cases i <;> simp [written]

theorem display_mem_written {i : Instr} : .display ∈ written i ↔ i = .clear ∨ ∃ x y n, i = .draw x y n := by
  cases i <;> simp [written]

theorem stack_mem_written {i : Instr} : .stack ∈ written i ↔ i = .ret ∨ ∃ nnn, i = .call nnn := by
  cases i <;> simp [written]

theorem index_mem_written {i : Instr} :
    .index ∈ written i ↔ (∃ nnn, i = .setIndex nnn) ∨ ∃ x, i = .addToIndex x ∨ i = .fontChar x := by
  cases i <;> simp [written]

theorem delay_mem_written {i : Instr} : .delay ∈ written i ↔ ∃ x, i = .setDelay x := by
  cases i <;> simp [written]

theorem sound_mem_written {i : Instr} : .sound ∈ written i ↔ ∃ x, i = .setSound x := by
  cases i <;> simp [written]

section
variable {i : Instr} {s t : State}

/-- A component that the instruction does not write reads as before, whether it completes or faults. -/
theorem exec_unchanged (h : exec i s = .next t) {c : Component} (hc : c ∉ written i) : Unchanged c s t := by
  have hs : Unchanged c s s := .refl c s
  have ne {d : Component} (hd : decide (d ∈ written i) = true) : c ≠ d := fun e => hc (e ▸ of_decide_eq_true hd)
  cases i with
  | sys nnn => cases h; exact hs.advance.retire
  | jump nnn | jumpOffset nnn => cases h; exact hs.advance.setPc.retire
  | skipEqImm x nn | skipNeImm x nn => cases h; exact (hs.skip _).retire
  | skipEqReg x y | skipNeReg x y => cases h; exact (hs.skip _).retire
  | setImm x nn | addImm x nn => cases h; exact (hs.advance.setReg (ne rfl)).retire
  | aluCopy x y | aluOr x y | aluAnd x y | aluXor x y => cases h; exact (hs.advance.setReg (ne rfl)).retire
  | aluAdd x y | aluSub x y | aluShr x y | aluSubn x y | aluShl x y =>
    cases h; exact ((hs.advance.setReg (ne rfl)).setReg (ne rfl)).retire
  | random x nn => cases h; exact ((hs.countDraw (ne rfl)).advance.setReg (ne rfl)).retire
  | getDelay x => cases h; exact (hs.advance.setReg (ne rfl)).retire
  | setDelay x => cases h; exact (hs.advance.setDelayTimer (ne rfl)).retire
  | setSound x => cases h; exact (hs.advance.setSoundTimer (ne rfl)).retire
  | setIndex nnn => cases h; exact (hs.advance.setIndexReg (ne rfl)).retire
  | fontChar x => cases h; exact (hs.advance.setIndexReg (ne rfl)).retire
  | clear => cases h; exact (hs.advance.setDisp (ne rfl)).retire
  | addToIndex x =>
    obtain ⟨w, rfl | rfl⟩ := exec_addToIndex_inv h
    · exact (hs.advance.setIndexReg (ne rfl)).retire
    · exact ((hs.advance.setIndexReg (ne rfl)).setReg (ne rfl)).retire
  | ret =>
    obtain ⟨w, -, rfl⟩ | rfl := exec_ret_inv h
    · exact (hs.advance.setStack (ne rfl)).setPc.retire
    · exact hs.takeFault
  | call nnn =>
    obtain rfl | ⟨-, rfl⟩ := exec_call_inv h
    · exact (hs.advance.setStack (ne rfl)).setPc.retire
    · exact hs.takeFault
  | skipKeyDown x =>
    obtain rfl | rfl := exec_skipKeyDown_inv h
    · exact (hs.skip _).retire
    · exact hs.takeFault
  | skipKeyUp x =>
    obtain rfl | rfl := exec_skipKeyUp_inv h
    · exact (hs.skip _).retire
    · exact hs.takeFault
  | getKeyBlocking x =>
    obtain rfl | ⟨b, rfl⟩ := exec_getKeyBlocking_inv h
    · exact hs.advance.setPc.retire
    · exact (hs.advance.setReg (ne rfl)).retire
  | draw x y n =>
    obtain ⟨b, d, rfl⟩ | ⟨a, rfl⟩ := exec_draw_inv h
    · exact ((hs.advance.setDisp (ne rfl)).setReg (ne rfl)).retire
    · exact hs.takeFault
  | bcd x =>
    obtain rfl | ⟨a, rfl⟩ := exec_bcd_inv h
    · exact (hs.advance.writeBytes (ne rfl)).retire
    · exact hs.takeFault
  | storeRegs x =>
    obtain rfl | ⟨a, rfl⟩ := exec_storeRegs_inv h
    · exact (hs.advance.writeBytes (ne rfl)).retire
    · exact hs.takeFault
  | loadRegs x =>
    obtain rfl | ⟨a, rfl⟩ := exec_loadRegs_inv h
    · exact (hs.advance.setRegsFrom (ne rfl)).retire
    · exact hs.takeFault

/-- The host's keys, LOADED and the fields that are not the core's survive every instruction, completing or faulting. -/
theorem exec_hostSideKept (h : exec i s = .next t) : HostSideKept s t := by
  obtain ⟨u, hu, hk⟩ | ⟨f, info, -, -, hu⟩ := exec_answers i s
  · obtain ⟨hparams, hkeys, hloaded, hinputs, houtputs⟩ := hk.hostSide
    rw [next_inj hu h]
    exact ⟨hparams, hkeys, hloaded, hinputs, houtputs⟩
  · rw [next_inj hu h]
    exact ⟨rfl, rfl, rfl, rfl, rfl⟩

end

/-- Settles O12, from the table of written components: each rule's premise says that the component is not in it. -/
theorem componentsWrittenOnlyByTheirInstructions : Obligations.ComponentsWrittenOnlyByTheirInstructions := by
  intro i s t h
  refine ⟨exec_hostSideKept h, fun hmem => ?_, fun hclear hdraw => ?_, fun hret hcall => ?_, fun hset hadd => ?_,
    fun hdelay => ?_, fun hsound => ?_⟩
  · exact exec_unchanged (c := .mem) h (by simpa [mem_mem_written] using hmem)
  · exact exec_unchanged (c := .display) h (by simp [display_mem_written, hclear, hdraw])
  · exact exec_unchanged (c := .stack) h (by simp [stack_mem_written, hret, hcall])
  · exact exec_unchanged (c := .index) h (by simp [index_mem_written, hset, hadd])
  · exact exec_unchanged (c := .delay) h (by simp [delay_mem_written, hdelay])
  · exact exec_unchanged (c := .sound) h (by simp [sound_mem_written, hsound])

/-! The registers an instruction may write (R23). -/

section
variable {s t : State} {r : Nibble}

/-- An instruction that does not write V leaves every register. -/
theorem exec_keeps_regs {i : Instr} (h : exec i s = .next t) (hi : .regs ∉ written i) : reg t r = reg s r :=
  exec_unchanged (c := .regs) h hi r

theorem reg_writeResultThenFlag_other {x : Nibble} {b : Byte} {f : Bool} (hx : r ≠ x) (hf : r ≠ vf) :
    reg (writeResultThenFlag x b f s) r = reg s r := by
  rw [reg_writeResultThenFlag, if_neg hf, if_neg hx]

theorem reg_writeFlagThenResult_other {x : Nibble} {b : Byte} {f : Bool} (hx : r ≠ x) (hf : r ≠ vf) :
    reg (writeFlagThenResult x b f s) r = reg s r := by
  rw [reg_writeFlagThenResult, if_neg hx, if_neg hf]

theorem reg_setReg_other {x : Nibble} {b : Byte} (hx : r ≠ x) : reg (setReg x b s) r = reg s r := by
  rw [reg_setReg, if_neg hx]

/-- R155: a load of V0 to VX writes no register above VX. -/
theorem reg_setRegsFrom_above {x : Nibble} (u : State) (hx : x < r) :
    reg (setRegsFrom 0 (bytesAtIndex s (rangeCount x)) u) r = reg u r := by
  have hlen : (bytesAtIndex s (rangeCount x)).length = x.toNat + 1 := by simp [bytesAtIndex, rangeCount]
  have hlt : x.toNat < r.toNat := hx
  have := r.isLt
  rw [reg_setRegsFrom _ _ _ _ (by omega), if_pos (Nat.zero_le _), List.getD_eq_default _ _ (by omega)]

end

/-- Settles O11. The instructions that write V write the registers of their rows of R23 and no other; every other instruction
leaves V by the table of written components. -/
theorem registersWrittenAsListed : Obligations.RegistersWrittenAsListed := by
  intro i s t h r hr
  cases i with
  | setImm x nn | addImm x nn | random x nn => cases h; exact reg_setReg_other hr
  | aluCopy x y | aluOr x y | aluAnd x y | aluXor x y => cases h; exact reg_setReg_other hr
  | getDelay x => cases h; exact reg_setReg_other hr
  | getKeyBlocking x =>
    obtain rfl | ⟨b, rfl⟩ := exec_getKeyBlocking_inv h
    · rfl
    · exact reg_setReg_other hr
  | aluAdd x y =>
    cases h
    exact reg_writeResultThenFlag_other hr.1 hr.2
  | aluSub x y | aluSubn x y | aluShr x y | aluShl x y =>
    cases h
    exact reg_writeFlagThenResult_other hr.1 hr.2
  | draw x y n =>
    obtain ⟨b, d, rfl⟩ | ⟨a, rfl⟩ := exec_draw_inv h
    · exact reg_setReg_other hr
    · rfl
  | addToIndex x =>
    obtain ⟨w, rfl | rfl⟩ := exec_addToIndex_inv h
    · rfl
    · exact reg_setReg_other hr
  | loadRegs x =>
    obtain rfl | ⟨a, rfl⟩ := exec_loadRegs_inv h
    · exact reg_setRegsFrom_above _ hr
    · rfl
  | _ => exact exec_keeps_regs h (by simp [written])

/-! Where pc goes (R26, R108). -/

theorem skip_pc (c : Bool) (s : State) :
    (retire (if c then advance (advance s) else advance s)).pc = if c then s.pc + 4 else s.pc + 2 := by
  cases c
  · rfl
  · exact BitVec.add_assoc s.pc 2 2

/-- A skip leaves pc advanced by 2 or by 4. -/
theorem skip_pc_cases (c : Bool) (s : State) :
    (retire (if c then advance (advance s) else advance s)).pc = s.pc + 2 ∨
    (retire (if c then advance (advance s) else advance s)).pc = s.pc + 4 := by
  rw [skip_pc]
  cases c
  · exact .inl rfl
  · exact .inr rfl

theorem writeBytes_pc (a : Nat) (l : List Byte) (s : State) : (writeBytes a l s).pc = s.pc := by
  rw [writeBytes_eq]

theorem setRegsFrom_pc (k : Nat) (l : List Byte) (s : State) : (setRegsFrom k l s).pc = s.pc := by
  rw [setRegsFrom_eq]

/-- R204: a fault leaves pc where it was, in a core that is no longer safe. -/
theorem takeFault_pc_and_not_safe (f : Fault) (info : Nat) (op : Option Word) (s : State) :
    (takeFault f info op s).pc = s.pc ∧ ¬ Safe (takeFault f info op s) := ⟨rfl, fun h => h rfl⟩

/-- R103: the sum fits 16 bits, so pc takes it without wrap. -/
theorem jumpOffset_target_toNat (nnn : Addr) (b : Byte) :
    (BitVec.ofNat 16 (nnn.toNat + b.toNat)).toNat = nnn.toNat + b.toNat := by
  have := nnn.isLt
  have := b.isLt
  rw [BitVec.toNat_ofNat, Nat.mod_eq_of_lt (by omega)]

/-- Settles O13, instruction by instruction; those that can fault by their two endings. -/
theorem pcMovesAsListed : Obligations.PcMovesAsListed := by
  intro i s t h
  cases i with
  | jump nnn => cases h; rfl
  | jumpOffset nnn => cases h; exact jumpOffset_target_toNat nnn _
  | call nnn =>
    obtain rfl | ⟨hdepth, rfl⟩ := exec_call_inv h
    · exact .inl rfl
    · exact .inr (by rw [hdepth]; exact takeFault_eq_faultedState ..)
  | ret =>
    obtain ⟨w, hw, rfl⟩ | rfl := exec_ret_inv h
    · exact .inl (List.getLast?_eq_some_iff.1 hw)
    · exact .inr (takeFault_eq_faultedState ..)
  | skipEqImm x nn | skipNeImm x nn => cases h; exact skip_pc_cases _ s
  | skipEqReg x y | skipNeReg x y => cases h; exact skip_pc_cases _ s
  | skipKeyDown x =>
    obtain rfl | rfl := exec_skipKeyDown_inv h
    · exact (skip_pc_cases _ s).imp_right .inl
    · exact .inr (.inr (takeFault_pc_and_not_safe ..))
  | skipKeyUp x =>
    obtain rfl | rfl := exec_skipKeyUp_inv h
    · exact (skip_pc_cases _ s).imp_right .inl
    · exact .inr (.inr (takeFault_pc_and_not_safe ..))
  | getKeyBlocking x =>
    obtain rfl | ⟨b, rfl⟩ := exec_getKeyBlocking_inv h
    · exact .inr (BitVec.add_sub_cancel s.pc 2)
    · exact .inl rfl
  | draw x y n =>
    obtain ⟨b, d, rfl⟩ | ⟨a, rfl⟩ := exec_draw_inv h
    · exact .inl rfl
    · exact .inr (takeFault_pc_and_not_safe ..)
  | bcd x =>
    obtain rfl | ⟨a, rfl⟩ := exec_bcd_inv h
    · exact .inl (writeBytes_pc ..)
    · exact .inr (takeFault_pc_and_not_safe ..)
  | storeRegs x =>
    obtain rfl | ⟨a, rfl⟩ := exec_storeRegs_inv h
    · exact .inl (writeBytes_pc ..)
    · exact .inr (takeFault_pc_and_not_safe ..)
  | loadRegs x =>
    obtain rfl | ⟨a, rfl⟩ := exec_loadRegs_inv h
    · exact .inl (setRegsFrom_pc ..)
    · exact .inr (takeFault_pc_and_not_safe ..)
  | addToIndex x => obtain ⟨w, rfl | rfl⟩ := exec_addToIndex_inv h <;> rfl
  | _ => cases h; rfl

/-! CALL (R102). -/

/-- Settles O17, from the two endings of CALL and the word of its instruction. -/
theorem callPushesOrOverflows : Obligations.CallPushesOrOverflows := by
  intro nnn s
  refine ⟨decodeWord_encode (i := .call nnn) rfl, fun hroom => ?_, fun hfull => ?_⟩
  · have hu := exec_call_completes (nnn := nnn) hroom
    exact ⟨_, hu, BitVec.toNat_setWidth_of_le (by decide), rfl,
      exec_hostSideKept hu, ⟨rfl, rfl, rfl, rfl, rfl, rfl⟩, rfl, fun _ => exec_unchanged hu⟩
  · exact (exec_call_faults hfull).trans rfl

/-! The host's events (R38). -/

section
variable {s : State} {rest : List Event}

/-- R220: a Tick of a running core counts both timers down. -/
theorem step_tick_of_running (hrun : s.runState = .running) (h : s.inputs = .tick :: rest) :
    step s = .next { s with dt := countDown s.dt, st := countDown s.st, inputs := rest } := by
  rw [step_of_input h]
  simp [applyEvent, eventTick, hrun]

theorem step_tick_of_not_running (hrun : s.runState ≠ .running) (h : s.inputs = .tick :: rest) :
    step s = .next { s with inputs := rest } := by
  rw [step_of_input h, applyEvent, eventTick]
  cases hr : s.runState with
  | running => exact absurd hr hrun
  | stopped | faulted => rfl

end

/-- Settles O42, from what a Tick does in each RUNSTATE and one decrement as a number. -/
theorem tickDecrementsTimers : Obligations.TickDecrementsTimers := by
  intro s rest h
  refine ⟨fun hrun => ?_, fun hrun => step_tick_of_not_running hrun h⟩
  exact ⟨_, step_tick_of_running hrun h, countDown_toNat s.dt, countDown_toNat s.st, rfl⟩

/-- Settles O43, by induction on the number of ticks: the first decrements, the others find a running core again. -/
theorem ticksNeverGoBelowZero : Obligations.TicksNeverGoBelowZero := by
  intro n
  induction n with
  | zero =>
    intro s rest _ h
    obtain rfl : s.inputs = rest := h
    exact ⟨s, rfl, rfl, rfl, rfl⟩
  | succ n ih =>
    intro s rest hrun h
    have hstep := step_tick_of_running (rest := List.replicate n Event.tick ++ rest) hrun h
    obtain ⟨t, ht, hdt, hst, hframe⟩ :=
      ih { s with dt := countDown s.dt, st := countDown s.st, inputs := _ } rest hrun rfl
    refine ⟨t, (run_succ n hstep).trans ht, ?_, ?_, hframe⟩
    · rw [hdt, countDown_toNat, Nat.sub_sub, Nat.add_comm]
    · rw [hst, countDown_toNat, Nat.sub_sub, Nat.add_comm]

/-! The keys. -/

/-- R225: a key event sets key k's flag and no other. -/
theorem hostKey_setHostKey {k : Nat} (hk : k < 16) (down : Bool) (s : State) (j : Fin 16) :
    (setHostKey k down s).hostKey[j] = if j.val = k then down else s.hostKey[j] := by
  simp only [setHostKey_hostKey, dif_pos hk, Fin.getElem_fin, Vector.getElem_set, eq_comm]

theorem step_key {s : State} {k : Nat} {down : Bool} {rest : List Event}
    (h : s.inputs = (if down then .keyDown k else .keyUp k) :: rest) :
    step s = eventKey k down { s with inputs := rest } := by
  rw [step_of_input h]
  cases down <;> rfl

/-- Settles O45, from the one update of a key event and its check of the key. -/
theorem keyEventsWriteOneFlag : Obligations.KeyEventsWriteOneFlag := by
  intro s k down rest h
  rw [step_key h, eventKey]
  refine ⟨fun hk => ?_, fun hk => if_neg (by omega)⟩
  exact ⟨_, if_pos hk, hostKey_setHostKey hk down _, rfl⟩

/-! The pixel query. -/

/-- Settles O51, from the check of the query and the pixel of a place inside the grid. -/
theorem pixelQueryAnswers : Obligations.PixelQueryAnswers := by
  intro s x y rest h
  rw [step_of_input h, applyEvent, eventPixel]
  refine ⟨fun hx hy => ?_, fun hout => if_neg (by omega)⟩
  have hpixel : pixelAt s.disp x y = s.disp[x][y] := dif_pos ⟨hx, hy⟩
  rw [if_pos ⟨hx, hy⟩, hpixel]

/-! The reset state (R20, R240, R241). -/

section
variable (p : Params)

theorem reg_resetWith (r : Nibble) : reg (State.resetWith p) r = 0 := Vector.getElem_replicate ..

/-- R241: the font's bytes stand at FONT_BASE. -/
theorem readByte_resetWith_font {k : Nat} (hk : k < 80) :
    readByte (State.resetWith p) (p.fontBase + k) = p.fontData[k] := by
  rw [readByte_of_mem_nil rfl]
  simp [State.resetWith, resetByte, hk]

/-- R241: every byte beside the font is zero. -/
theorem readByte_resetWith_outside {a : Nat} (ha : a < p.fontBase ∨ p.fontBase + 80 ≤ a) :
    readByte (State.resetWith p) a = 0 := by
  rw [readByte_of_mem_nil rfl]
  exact dif_neg (show ¬ (p.fontBase ≤ a ∧ a < p.fontBase + 80) by omega)

end

/-- Settles O48: a Reset puts every component to the reset state of its own parameters. -/
theorem resetSetsEveryComponent : Obligations.ResetSetsEveryComponent := by
  intro s rest h
  exact ⟨_, step_of_input h, reg_resetWith s.params, rfl, rfl, rfl, rfl, rfl, pixelAt_blank,
    fun k => ⟨keyAt_up k, keyAt_up k⟩, rfl, rfl, rfl, rfl, rfl, rfl, rfl, fun k => readByte_resetWith_font s.params,
    fun a => readByte_resetWith_outside s.params, rfl, rfl, rfl, rfl⟩

/-- Settles O52: the state the model starts in is the reset state of the suggested parameters (R9). -/
theorem resetStateAsListed : Obligations.ResetStateAsListed :=
  ⟨reg_resetWith suggestedParams, rfl, rfl, rfl, rfl, rfl, pixelAt_blank, fun k => ⟨keyAt_up k, keyAt_up k⟩,
    rfl, rfl, rfl, rfl, rfl, rfl, rfl, fun _ => readByte_resetWith_font suggestedParams,
    fun _ => readByte_resetWith_outside suggestedParams⟩

end Sys2Proof.Machine

/-!
PROOFS. Memory and the fetch (O6, O34, O56): a step of a running core executes the instruction at pc, and bytes that an
instruction has just stored are what it fetches (R56, R63).
-/

namespace Sys2Proof.Machine

/-! The step of a running core whose two bytes at pc hold an instruction (R90, R91, R93). -/

section
variable {s : State} {i : Instr}

theorem runInstruction_of_fetches (h : Fetches s i) : runInstruction s = exec i s := by
  obtain ⟨hpc, hd⟩ := h
  simp only [runInstruction, fetchWord_of_inside hpc, hd]

theorem eventStep_of_fetches (hrun : s.runState = .running) (h : Fetches s i) : eventStep s = exec i s := by
  rw [eventStep_of_running hrun, runInstruction_of_fetches h]

end

/-- Settles O6: both forms of a Step event are `eventStep`, and the list of events is no part of the fetch. -/
theorem stepRunsDecodedInstruction : Obligations.StepRunsDecodedInstruction := by
  intro s i hrun hf
  refine ⟨fun hin => ?_, fun rest hin => ?_⟩
  · rw [step_of_no_inputs hin, eventStep_of_fetches hrun hf]
  · rw [step_of_input hin]
    exact eventStep_of_fetches (s := { s with inputs := rest }) hrun hf

/-! The stores that complete: where they wrote, and that it lies inside memory (R52, R153, R154). -/

section
variable {x : Nibble} {s t : State}

theorem exec_storeRegs_of_safe (h : exec (.storeRegs x) s = .next t) (hs : Safe t) :
    effAddr s 0 + (regRange s x).length ≤ memSize ∧
      t = retire (writeBytes (effAddr s 0) (regRange s x) (advance s)) := by
  cases ha : accessFault s (rangeCount x) with
  | none => exact ⟨length_regRange s x ▸ access_inside ha (Nat.succ_pos _), next_inj (exec_storeRegs_completes ha) h⟩
  | some a =>
    obtain rfl := next_inj (exec_storeRegs_faults ha) h
    exact absurd rfl hs

theorem exec_bcd_of_safe (h : exec (.bcd x) s = .next t) (hs : Safe t) :
    effAddr s 0 + (bcdDigits (reg s x)).length ≤ memSize ∧
      t = retire (writeBytes (effAddr s 0) (bcdDigits (reg s x)) (advance s)) := by
  cases ha : accessFault s 3 with
  | none => exact ⟨access_inside ha (Nat.succ_pos _), next_inj (exec_bcd_completes ha) h⟩
  | some a =>
    obtain rfl := next_inj (exec_bcd_faults ha) h
    exact absurd rfl hs

end

/-! The fetch of stored bytes (R63). -/

theorem safe_of_running {t : State} (hrun : t.runState = .running) : Safe t := by
  simp [Safe, hrun]

/-- R63: a core whose pc lies on a stored byte, another stored byte after it, fetches the instruction that the two hold. -/
theorem fetches_retire_writeBytes {a k : Nat} {l : List Byte} {u : State} {i : Instr} (hm : Memory.wf u.params u.mem)
    (hin : a + l.length ≤ memSize) (hk : k + 1 < l.length) (hpc : (retire (writeBytes a l u)).pc.toNat = a + k)
    (hd : decodeWord (l[k] ++ l[k + 1]) = .ok i) : Fetches (retire (writeBytes a l u)) i := by
  refine ⟨by simp only [memSize] at hin; omega, ?_⟩
  rw [hpc, Nat.add_assoc, readByte_retire, readByte_retire, readByte_writeBytes hm hin k (by omega),
    readByte_writeBytes hm hin (k + 1) hk]
  exact hd

/-- R154: the range holds V[k] at its place k. -/
theorem getElem_regRange_toNat (s : State) (x k : Nibble) (h : k.toNat < (regRange s x).length) :
    (regRange s x)[k.toNat] = reg s k := by
  rw [getElem_regRange, BitVec.ofNat_toNat, BitVec.setWidth_eq]

/-- R154: below VX, V[k + 1] stands after V[k]. -/
theorem getElem_regRange_toNat_succ (s : State) (x k : Nibble) (h : k.toNat + 1 < (regRange s x).length) :
    (regRange s x)[k.toNat + 1] = reg s (k + 1) := by
  rw [getElem_regRange, BitVec.ofNat_add, BitVec.ofNat_toNat, BitVec.setWidth_eq]
  rfl

/-- Settles O34: a store that leaves the core running has written V0..VX inside memory, so the fetch reads them back. -/
theorem storedCodeIsFetchedNext : Obligations.StoredCodeIsFetchedNext := by
  intro x k s t i hm h hrun hnil hkx hpc hd
  obtain ⟨hin, rfl⟩ := exec_storeRegs_of_safe h (safe_of_running hrun)
  have hk : k.toNat + 1 < (regRange s x).length := by
    rw [length_regRange]
    exact Nat.succ_lt_succ hkx
  have hf : Fetches _ i := fetches_retire_writeBytes (u := advance s) hm hin hk hpc <| by
    rwa [getElem_regRange_toNat, getElem_regRange_toNat_succ]
  exact (stepRunsDecodedInstruction _ i hrun hf).1 hnil

/-- Settles O56: a byte is the digit whose number it has, so pc on digit 0 or 1 fetches two of the stored digits. -/
theorem storedDigitsAreFetchedNext : Obligations.StoredDigitsAreFetchedNext := by
  intro x s t hi lo i hm h hrun hdigits hd
  obtain ⟨hin, rfl⟩ := exec_bcd_of_safe h (safe_of_running hrun)
  have hf : Fetches (retire (writeBytes (effAddr s 0) (bcdDigits (reg s x)) (advance s))) i := by
    obtain ⟨hpc, hhi, hlo⟩ | ⟨hpc, hhi, hlo⟩ := hdigits
    · rw [(BitVec.toNat_eq_nat.1 hhi).2, (BitVec.toNat_eq_nat.1 hlo).2] at hd
      exact fetches_retire_writeBytes (k := 0) (u := advance s) hm hin (by simp [bcdDigits]) hpc hd
    · rw [(BitVec.toNat_eq_nat.1 hhi).2, (BitVec.toNat_eq_nat.1 hlo).2] at hd
      exact fetches_retire_writeBytes (k := 1) (u := advance s) hm hin (by simp [bcdDigits]) hpc hd
  exact ⟨hf, stepRunsDecodedInstruction _ i hrun hf⟩

end Sys2Proof.Machine

/-!
PROOFS. The encoding (O1 to O5). A word is its fields put together (R71), so both directions between words and instructions
go field by field: what each family of the decoder accepts is the word of what it answers, and a word that has the fixed bits
of a row is the word of that row's instruction with the word's own operands.
-/

namespace Sys2Proof

/-! The word of known fields, format by format (R72). -/

section
variable {w : Word} {a : Nibble}

theorem formatA_eq_word (h : (fieldsOf w).n1 = a) : a ++ (fieldsOf w).nnn = w := by
  rw [← h]
  exact (word_eq_fields w).1.symm

theorem formatXI_eq_word (h : (fieldsOf w).n1 = a) : a ++ (fieldsOf w).x ++ (fieldsOf w).nn = w := by
  rw [← h]
  exact (word_eq_fields w).2.1.symm

theorem formatXO_eq_word {b : Byte} (h : (fieldsOf w).n1 = a) (hb : (fieldsOf w).nn = b) : a ++ (fieldsOf w).x ++ b = w := by
  rw [← hb]
  exact formatXI_eq_word h

theorem formatXYN_eq_word (h : (fieldsOf w).n1 = a) :
    a ++ (fieldsOf w).x ++ (fieldsOf w).y ++ (fieldsOf w).n = w := by
  rw [← h]
  exact (word_eq_fields w).2.2.symm

theorem formatXY_eq_word {b : Nibble} (h : (fieldsOf w).n1 = a) (hb : (fieldsOf w).n = b) :
    a ++ (fieldsOf w).x ++ (fieldsOf w).y ++ b = w := by
  rw [← hb]
  exact formatXYN_eq_word h

end

/-! The fixed bits of a word are fields of it (R71, R76). -/

open Laws.EncodingRow

theorem mask_n1_eq_iff (w : Word) (a : Nibble) : w &&& 0xF000 = a ++ 0#12 ↔ (fieldsOf w).n1 = a := by
  conv_lhs => rw [(word_eq_fields w).1, mask_formatA]
  exact BitVec.append_left_inj 0#12

theorem formatXO_eq_word_of_mask {w : Word} {a : Nibble} {b : Byte} (h : w &&& 0xF0FF = a ++ 0#4 ++ b) :
    a ++ (fieldsOf w).x ++ b = w := by
  obtain ⟨-, hw, -⟩ := word_eq_fields w
  rw [hw, mask_formatXO] at h
  obtain ⟨hn1, -, hnn⟩ := fieldsOf_formatXI (fieldsOf w).n1 0#4 (fieldsOf w).nn
  obtain ⟨ha, -, hb⟩ := fieldsOf_formatXI a 0#4 b
  rw [← h] at ha hb
  exact formatXO_eq_word (hn1.symm.trans ha) (hnn.symm.trans hb)

theorem formatXY_eq_word_of_mask {w : Word} {a b : Nibble} (h : w &&& 0xF00F = a ++ 0#4 ++ 0#4 ++ b) :
    a ++ (fieldsOf w).x ++ (fieldsOf w).y ++ b = w := by
  obtain ⟨-, -, hw⟩ := word_eq_fields w
  rw [hw, mask_formatXY] at h
  obtain ⟨hn1, -, -, hn⟩ := fieldsOf_formatXY (fieldsOf w).n1 0#4 0#4 (fieldsOf w).n
  obtain ⟨ha, -, -, hb⟩ := fieldsOf_formatXY a 0#4 0#4 b
  rw [← h] at ha hb
  exact formatXY_eq_word (hn1.symm.trans ha) (hn.symm.trans hb)

theorem mask_nn (w : Word) : w &&& 0x00FF = 0#8 ++ (fieldsOf w).nn := by
  have h : ((fieldsOf w).n1 ++ (fieldsOf w).x ++ (fieldsOf w).nn) &&& (0#8 ++ 0xFF#8) =
      ((fieldsOf w).n1 ++ (fieldsOf w).x &&& 0#8) ++ ((fieldsOf w).nn &&& 0xFF#8) := BitVec.and_append
  have hnn : (fieldsOf w).nn &&& 0xFF#8 = (fieldsOf w).nn := BitVec.and_allOnes
  rwa [formatXI_eq_word rfl, BitVec.and_zero, hnn] at h

theorem mask_n (w : Word) : w &&& 0x000F = 0#12 ++ (fieldsOf w).n := by
  have h : ((fieldsOf w).n1 ++ (fieldsOf w).x ++ (fieldsOf w).y ++ (fieldsOf w).n) &&& (0#12 ++ 0xF#4) =
      ((fieldsOf w).n1 ++ (fieldsOf w).x ++ (fieldsOf w).y &&& 0#12) ++ ((fieldsOf w).n &&& 0xF#4) := BitVec.and_append
  have hn : (fieldsOf w).n &&& 0xF#4 = (fieldsOf w).n := BitVec.and_allOnes
  rwa [formatXYN_eq_word rfl, BitVec.and_zero, hn] at h

theorem append_injective {v k : Nat} (a : BitVec v) : Function.Injective (fun b : BitVec k => a ++ b) :=
  fun _ _ => (BitVec.append_right_inj a).1

/-- A test of the low byte against a list of words is one of the field against the list of their low bytes. -/
theorem mask_nn_mem_iff (w : Word) (l : List Byte) : w &&& 0x00FF ∈ l.map (0#8 ++ ·) ↔ (fieldsOf w).nn ∈ l := by
  rw [mask_nn]
  exact List.mem_map_of_injective (append_injective 0#8)

theorem mask_n_mem_iff (w : Word) (l : List Nibble) : w &&& 0x000F ∈ l.map (0#12 ++ ·) ↔ (fieldsOf w).n ∈ l := by
  rw [mask_n]
  exact List.mem_map_of_injective (append_injective 0#12)

theorem mask_n_eq_zero_iff (w : Word) : w &&& 0x000F = 0 ↔ (fieldsOf w).n = 0 := by
  rw [mask_n]
  exact BitVec.append_right_inj (t₂ := 0#4) 0#12

/-! What the decoder accepts (R75, R76). -/

theorem wellFormed_sys_iff {nnn : Addr} : (Instr.sys nnn).wellFormed = true ↔ nnn ≠ 0x0E0 ∧ nnn ≠ 0x0EE := by
  simp [Instr.wellFormed]

section
variable {w : Word} {i : Instr}

/-- Major opcode 0 leaves to `sys` what is not the word of `clear` or `ret`. -/
theorem encode_decodeFamily0 (h1 : (fieldsOf w).n1 = 0x0) :
    (decodeFamily0 (fieldsOf w)).wellFormed = true ∧ encode (decodeFamily0 (fieldsOf w)) = w := by
  have hw : 0x0#4 ++ (fieldsOf w).nnn = w := formatA_eq_word h1
  unfold decodeFamily0
  split
  case isTrue hclear =>
    rw [hclear] at hw
    exact ⟨rfl, hw⟩
  case isFalse hclear =>
    split
    case isTrue hret =>
      rw [hret] at hw
      exact ⟨rfl, hw⟩
    case isFalse hret => exact ⟨wellFormed_sys_iff.2 ⟨hclear, hret⟩, hw⟩

theorem encode_of_decodeFamily8 (h1 : (fieldsOf w).n1 = 0x8) (h : decodeFamily8 (fieldsOf w) = .ok i) :
    i.wellFormed = true ∧ encode i = w := by
  unfold decodeFamily8 at h
  split at h
  case h_10 => cases h
  all_goals next hn =>
    cases h
    exact ⟨rfl, formatXY_eq_word h1 (BitVec.eq_of_toNat_eq hn)⟩

theorem encode_of_decodeFamilyE (h1 : (fieldsOf w).n1 = 0xE) (h : decodeFamilyE (fieldsOf w) = .ok i) :
    i.wellFormed = true ∧ encode i = w := by
  unfold decodeFamilyE at h
  split_ifs at h with hnn hnn <;> cases h <;> exact ⟨rfl, formatXO_eq_word h1 hnn⟩

theorem encode_of_decodeFamilyF (h1 : (fieldsOf w).n1 = 0xF) (h : decodeFamilyF (fieldsOf w) = .ok i) :
    i.wellFormed = true ∧ encode i = w := by
  unfold decodeFamilyF at h
  split_ifs at h with hnn hnn hnn hnn hnn hnn hnn hnn hnn <;> cases h <;> exact ⟨rfl, formatXO_eq_word h1 hnn⟩

/-- Branch `h_k` of the decoder is major opcode k - 1; the branches of one format go together (R72). -/
theorem encode_of_decodeWord (h : decodeWord w = .ok i) : i.wellFormed = true ∧ encode i = w := by
  unfold decodeWord decodeFields at h
  split at h <;> rename_i h1
  case h_1 =>
    cases h
    exact encode_decodeFamily0 (BitVec.eq_of_toNat_eq h1)
  case h_9 => exact encode_of_decodeFamily8 (BitVec.eq_of_toNat_eq h1) h
  case h_15 => exact encode_of_decodeFamilyE (BitVec.eq_of_toNat_eq h1) h
  case h_16 =>
    have h15 : (fieldsOf w).n1 = 0xF := by
      simp only [imp_false] at *
      bv_omega
    exact encode_of_decodeFamilyF h15 h
  case h_2 | h_3 | h_11 | h_12 =>
    cases h
    exact ⟨rfl, formatA_eq_word (BitVec.eq_of_toNat_eq h1)⟩
  case h_4 | h_5 | h_7 | h_8 | h_13 =>
    cases h
    exact ⟨rfl, formatXI_eq_word (BitVec.eq_of_toNat_eq h1)⟩
  case h_14 =>
    cases h
    exact ⟨rfl, formatXYN_eq_word (BitVec.eq_of_toNat_eq h1)⟩
  case h_6 | h_10 =>
    split_ifs at h with hn
    cases h
    exact ⟨rfl, formatXY_eq_word (BitVec.eq_of_toNat_eq h1) hn⟩

end

/-! What the decoder rejects (R77). -/

section
variable {f : Fields}

/-- A test that accepts rejects nothing itself: what is rejected fails it and is rejected by the rest. -/
theorem ite_ok_error_iff {c : Prop} [Decidable c] {i : Instr} {r : Except DecodeError Instr} :
    (∃ e, (if c then .ok i else r) = .error e) ↔ ¬ c ∧ ∃ e, r = .error e := by
  by_cases hc : c <;> simp [hc]

theorem decodeFamily8_error_iff :
    (∃ e, decodeFamily8 f = .error e) ↔ f.n ∈ [0x8, 0x9, 0xA, 0xB, 0xC, 0xD, (0xF : Nibble)] := by
  unfold decodeFamily8
  split
  case h_10 =>
    refine iff_of_true ⟨_, rfl⟩ ?_
    simp only [imp_false, List.mem_cons, List.not_mem_nil, or_false] at *
    bv_omega
  all_goals next hn => simp [(BitVec.toNat_eq_nat.1 hn).2]

theorem decodeFamilyE_error_iff : (∃ e, decodeFamilyE f = .error e) ↔ f.nn ∉ [0x9E, (0xA1 : Byte)] := by
  simp [decodeFamilyE, ite_ok_error_iff]

theorem decodeFamilyF_error_iff : (∃ e, decodeFamilyF f = .error e) ↔
    f.nn ∉ [0x07, 0x0A, 0x15, 0x18, 0x1E, 0x29, 0x33, 0x55, (0x65 : Byte)] := by
  simp [decodeFamilyF, ite_ok_error_iff]

/-- R77 over the fields: the family tests of five major opcodes can fail, and no other word is rejected. -/
theorem decodeFields_error_iff : (∃ e, decodeFields f = .error e) ↔
    (f.n1 = 0x5 ∧ f.n ≠ 0) ∨
    (f.n1 = 0x8 ∧ f.n ∈ [0x8, 0x9, 0xA, 0xB, 0xC, 0xD, (0xF : Nibble)]) ∨
    (f.n1 = 0x9 ∧ f.n ≠ 0) ∨
    (f.n1 = 0xE ∧ f.nn ∉ [0x9E, (0xA1 : Byte)]) ∨
    (f.n1 = 0xF ∧ f.nn ∉ [0x07, 0x0A, 0x15, 0x18, 0x1E, 0x29, 0x33, 0x55, (0x65 : Byte)]) := by
  rw [← decodeFamily8_error_iff, ← decodeFamilyE_error_iff, ← decodeFamilyF_error_iff]
  unfold decodeFields
  split <;> rename_i h1
  case h_16 =>
    have h15 : f.n1 = 0xF := by
      simp only [imp_false] at *
      bv_omega
    simp [h15]
  all_goals simp [(BitVec.toNat_eq_nat.1 h1).2, ite_ok_error_iff]

end

/-! The row that a word matches (R76). -/

/-- The instruction of the same row as `i` whose operands are the fields `f`. -/
def Instr.withFields (f : Fields) : Instr → Instr
  | .clear => .clear
  | .ret => .ret
  | .sys _ => .sys f.nnn
  | .jump _ => .jump f.nnn
  | .call _ => .call f.nnn
  | .skipEqImm _ _ => .skipEqImm f.x f.nn
  | .skipNeImm _ _ => .skipNeImm f.x f.nn
  | .skipEqReg _ _ => .skipEqReg f.x f.y
  | .setImm _ _ => .setImm f.x f.nn
  | .addImm _ _ => .addImm f.x f.nn
  | .aluCopy _ _ => .aluCopy f.x f.y
  | .aluOr _ _ => .aluOr f.x f.y
  | .aluAnd _ _ => .aluAnd f.x f.y
  | .aluXor _ _ => .aluXor f.x f.y
  | .aluAdd _ _ => .aluAdd f.x f.y
  | .aluSub _ _ => .aluSub f.x f.y
  | .aluShr _ _ => .aluShr f.x f.y
  | .aluSubn _ _ => .aluSubn f.x f.y
  | .aluShl _ _ => .aluShl f.x f.y
  | .skipNeReg _ _ => .skipNeReg f.x f.y
  | .setIndex _ => .setIndex f.nnn
  | .jumpOffset _ => .jumpOffset f.nnn
  | .random _ _ => .random f.x f.nn
  | .draw _ _ _ => .draw f.x f.y f.n
  | .skipKeyDown _ => .skipKeyDown f.x
  | .skipKeyUp _ => .skipKeyUp f.x
  | .getDelay _ => .getDelay f.x
  | .getKeyBlocking _ => .getKeyBlocking f.x
  | .setDelay _ => .setDelay f.x
  | .setSound _ => .setSound f.x
  | .addToIndex _ => .addToIndex f.x
  | .fontChar _ => .fontChar f.x
  | .bcd _ => .bcd f.x
  | .storeRegs _ => .storeRegs f.x
  | .loadRegs _ => .loadRegs f.x

@[simp] theorem patternOf_withFields (f : Fields) (i : Instr) : patternOf (i.withFields f) = patternOf i := by
  cases i <;> rfl

theorem encode_matches (i : Instr) : encode i &&& (patternOf i).1 = (patternOf i).2 := by
  cases i
  exacts [clear, ret, sys _, jump _, call _, skipEqImm _ _, skipNeImm _ _, skipEqReg _ _, setImm _ _, addImm _ _,
    aluCopy _ _, aluOr _ _, aluAnd _ _, aluXor _ _, aluAdd _ _, aluSub _ _, aluShr _ _, aluSubn _ _, aluShl _ _,
    skipNeReg _ _, setIndex _, jumpOffset _, random _ _, draw _ _ _, skipKeyDown _, skipKeyUp _, getDelay _,
    getKeyBlocking _, setDelay _, setSound _, addToIndex _, fontChar _, bcd _, storeRegs _, loadRegs _]

/-- A word with the fixed bits of a row is the word of that row's instruction with the word's own operands. -/
theorem encode_withFields {w : Word} {i : Instr} (h : w &&& (patternOf i).1 = (patternOf i).2) :
    encode (i.withFields (fieldsOf w)) = w := by
  cases i with
  | clear | ret => exact h.symm.trans BitVec.and_allOnes
  | sys | jump | call | setIndex | jumpOffset => exact formatA_eq_word ((mask_n1_eq_iff w _).1 h)
  | skipEqImm | skipNeImm | setImm | addImm | random => exact formatXI_eq_word ((mask_n1_eq_iff w _).1 h)
  | draw => exact formatXYN_eq_word ((mask_n1_eq_iff w _).1 h)
  | skipEqReg | skipNeReg | aluCopy | aluOr | aluAnd | aluXor | aluAdd | aluSub | aluShr | aluSubn | aluShl =>
    exact formatXY_eq_word_of_mask h
  | skipKeyDown | skipKeyUp | getDelay | getKeyBlocking | setDelay | setSound | addToIndex | fontChar | bcd | storeRegs
  | loadRegs =>
    exact formatXO_eq_word_of_mask h

/-- Only the row of `sys` has an all-zero match, and its words that are ill formed are those of `clear` and `ret`. -/
theorem wellFormed_of_encode_ne {i : Instr} (h : (patternOf i).2 = 0 → encode i ≠ 0x00E0 ∧ encode i ≠ 0x00EE) :
    i.wellFormed = true := by
  cases i with
  | sys nnn =>
    obtain ⟨hclear, hret⟩ := h rfl
    exact wellFormed_sys_iff.2 ⟨fun e => hclear (e ▸ rfl), fun e => hret (e ▸ rfl)⟩
  | _ => rfl

theorem decodeWord_of_matches {w : Word} {i : Instr} (h : w &&& (patternOf i).1 = (patternOf i).2)
    (hsys : (patternOf i).2 = 0 → w ≠ 0x00E0 ∧ w ≠ 0x00EE) : decodeWord w = .ok (i.withFields (fieldsOf w)) := by
  have hw := encode_withFields h
  have hwf : (i.withFields (fieldsOf w)).wellFormed = true := wellFormed_of_encode_ne (by rwa [hw, patternOf_withFields])
  have hd := decodeWord_encode hwf
  rwa [hw] at hd

theorem matches_of_decodeWord {w : Word} {i : Instr} (h : decodeWord w = .ok i) :
    w &&& (patternOf i).1 = (patternOf i).2 := by
  obtain ⟨-, rfl⟩ := encode_of_decodeWord h
  exact encode_matches i

/-- R76: a word that two rows match, `sys` aside where it does not apply, decodes by both to one instruction. -/
theorem patternOf_eq_of_matches {w : Word} {i j : Instr} (hi : w &&& (patternOf i).1 = (patternOf i).2)
    (hj : w &&& (patternOf j).1 = (patternOf j).2)
    (hsys : (patternOf i).2 = 0 ∨ (patternOf j).2 = 0 → w ≠ 0x00E0 ∧ w ≠ 0x00EE) : patternOf i = patternOf j := by
  have hdi := decodeWord_of_matches hi fun h => hsys (.inl h)
  have hdj := decodeWord_of_matches hj fun h => hsys (.inr h)
  have hij : i.withFields (fieldsOf w) = j.withFields (fieldsOf w) := Except.ok.inj (hdi.symm.trans hdj)
  rw [← patternOf_withFields (fieldsOf w) i, hij, patternOf_withFields]

/-! The obligations. -/

/-- Settles O1, from the round trip of each format. -/
theorem decodeOfEncode : Obligations.DecodeOfEncode := fun _ => decodeWord_encode

/-- Settles O2: each branch of the decoder that accepts a word has tested the fixed bits of what it answers. -/
theorem encodeOfDecode : Obligations.EncodeOfDecode := fun _ _ => encode_of_decodeWord

/-- Settles O3: a word that matches a row is the word of that row's instruction with the word's operands (O1 decodes it), and
a word that decodes is the word of what it decodes to (O2), so it matches that row. -/
theorem rowSelectedByMaskAndMatch : Obligations.RowSelectedByMaskAndMatch := by
  refine ⟨fun w i h hsys => ⟨_, decodeWord_of_matches h hsys, patternOf_withFields _ i⟩, fun w hnone => ?_,
    fun _ _ _ => patternOf_eq_of_matches⟩
  cases hd : decodeWord w with
  | ok i => exact absurd (matches_of_decodeWord hd) (hnone i)
  | error e => exact ⟨e, rfl⟩

/-- Settles O4: the masks of R77 read the fields that the decoder tests. -/
theorem rejectedWordsAreTheFiveSpaces : Obligations.RejectedWordsAreTheFiveSpaces := by
  intro w
  refine decodeFields_error_iff.trans ?_
  exact or_congr (and_congr (mask_n1_eq_iff w 0x5).symm (not_congr (mask_n_eq_zero_iff w).symm)) <|
    or_congr (and_congr (mask_n1_eq_iff w 0x8).symm (mask_n_mem_iff w _).symm) <|
    or_congr (and_congr (mask_n1_eq_iff w 0x9).symm (not_congr (mask_n_eq_zero_iff w).symm)) <|
    or_congr (and_congr (mask_n1_eq_iff w 0xE).symm (not_congr (mask_nn_mem_iff w _).symm))
      (and_congr (mask_n1_eq_iff w 0xF).symm (not_congr (mask_nn_mem_iff w _).symm))

/-- Settles O5: each word that is accepted is the word of the instruction (O1), and 5AB1 has n ≠ 0 (R77). -/
theorem writtenWordsDecode : Obligations.WrittenWordsDecode :=
  ⟨decodeWord_encode (i := .ret) rfl, decodeWord_encode (i := .sys 0x123) rfl, decodeWord_encode (i := .call 0x210) rfl,
    decodeWord_encode (i := .skipEqImm 1 0x05) rfl, decodeWord_encode (i := .aluShr 3 0xA) rfl,
    decodeWord_encode (i := .aluSubn 1 2) rfl, decodeWord_encode (i := .setIndex 0x300) rfl,
    decodeWord_encode (i := .draw 2 3 5) rfl, decodeWord_encode (i := .skipKeyUp 1) rfl,
    decodeWord_encode (i := .storeRegs 2) rfl, rfl⟩

end Sys2Proof

/-!
PROOFS. The step cycle (O7, O8, O9, O55): the three things a Step of a running core can meet at pc, which are a fetch outside
memory, an instruction, and a word that is none; on which of R200's conditions it faults; and that the list of the host's
events is no part of it.
-/

namespace Sys2Proof.Machine

/-! A Step, listed or not, and what stands at pc (R90, R91, R94). -/

section
variable {s : State} {i j : Instr}

theorem step_of_listed_step {rest : List Event} (h : s.inputs = .step :: rest) :
    step s = eventStep { s with inputs := rest } := step_of_input h

theorem step_of_running (hrun : s.runState = .running) (hin : s.inputs = []) : step s = runInstruction s := by
  rw [step_of_no_inputs hin, eventStep_of_running hrun]

theorem runInstruction_of_outside (h : 4096 ≤ s.pc.toNat + 1) :
    runInstruction s =
      .next (takeFault .fetchBounds (if 4096 ≤ s.pc.toNat then s.pc.toNat else s.pc.toNat + 1) none s) := by
  simp only [runInstruction, fetchWord_of_outside h]

theorem runInstruction_of_rejected {e : DecodeError} (hpc : s.pc.toNat + 1 < 4096)
    (hd : decodeWord (readByte s s.pc.toNat ++ readByte s (s.pc.toNat + 1)) = .error e) :
    runInstruction s = .next (retire (advance s)) := by
  simp only [runInstruction, fetchWord_of_inside hpc, hd, noOp, complete]

theorem not_fetches_of_outside (h : 4096 ≤ s.pc.toNat + 1) (i : Instr) : ¬ Fetches s i :=
  fun hf => absurd hf.1 (by omega)

theorem not_fetches_of_rejected {e : DecodeError}
    (hd : decodeWord (readByte s s.pc.toNat ++ readByte s (s.pc.toNat + 1)) = .error e) (i : Instr) : ¬ Fetches s i :=
  fun hf => nomatch hd.symm.trans hf.2

/-- The bytes at pc hold one instruction. -/
theorem Fetches.iff_eq (hi : Fetches s i) : Fetches s j ↔ j = i :=
  ⟨fun hj => Except.ok.inj (hj.2.symm.trans hi.2), fun e => e ▸ hi⟩

/-- The fetched word is the word of the instruction, which a fault records (R204). -/
theorem Fetches.encode_eq (hi : Fetches s i) :
    encode i = readByte s s.pc.toNat ++ readByte s (s.pc.toNat + 1) := (encode_of_decodeWord hi.2).2

end

/-- Settles O8, by the two forms of a Step event. -/
theorem stepIdleUnlessRunning : Obligations.StepIdleUnlessRunning := by
  intro s hrun
  refine ⟨fun hin => ?_, fun rest hin => ?_⟩
  · rw [step_of_no_inputs hin, eventStep_of_not_running hrun]
  · rw [step_of_listed_step hin, eventStep_of_not_running (s := { s with inputs := rest }) hrun]

/-! Words that do nothing (R94, R95). -/

/-- R76: a word of 0NNN other than 00E0 and 00EE decodes to `sys`. -/
theorem decodeWord_of_major_zero {w : Word} (h0 : w &&& 0xF000 = 0) (hclear : w ≠ 0x00E0) (hret : w ≠ 0x00EE) :
    decodeWord w = .ok (.sys (fieldsOf w).nnn) :=
  decodeWord_of_matches (i := .sys 0) h0 fun _ => ⟨hclear, hret⟩

theorem exec_sys (nnn : Addr) (s : State) : exec (.sys nnn) s = .next (retire (advance s)) := rfl

/-- The frame of the no-op: pc and KeyPrev are all that it writes (R94). -/
theorem onlyChanges_advance (s : State) : OnlyChanges [] s (retire (advance s)) :=
  onlyChanges_retire (kept_advance s).hostSide (kept_advance s).faultRegs fun c _ => (Unchanged.refl c s).advance

/-- Settles O7: a word that matches no row is rejected (O3), a word of 0NNN decodes to `sys`, and both run as the no-op. -/
theorem unrecognisedWordsAndSysAreNoOps : Obligations.UnrecognisedWordsAndSysAreNoOps := by
  refine ⟨?_, fun nnn s => ⟨_, exec_sys nnn s, rfl, onlyChanges_advance s⟩⟩
  rintro s w hrun hin hpc rfl hw
  refine (step_of_running hrun hin).trans ?_
  obtain hnone | ⟨h0, hclear, hret⟩ := hw
  · obtain ⟨e, hd⟩ := rowSelectedByMaskAndMatch.2.1 _ hnone
    exact runInstruction_of_rejected hpc hd
  · exact runInstruction_of_fetches ⟨hpc, decodeWord_of_major_zero h0 hclear hret⟩

/-! The fault of an instruction (R200). -/

/-- The fault that instruction `i` raises in state `s`, with its information, if it raises one (R27, R28, R52, R180, R181). An
instruction that accesses no bytes passes the bounds check. -/
def execFault (i : Instr) (s : State) : Option (Fault × Nat) :=
  match i with
  | .ret => if s.stack = [] then some (.stackUnderflow, 0) else none
  | .call _ => if s.stack.length = s.params.stackDepth then some (.stackOverflow, s.params.stackDepth) else none
  | .skipKeyDown x | .skipKeyUp x => if 15 < (reg s x).toNat then some (.keyIndex, (reg s x).toNat) else none
  | i => (accessFault s (accessBytes i)).map (.memBounds, ·)

section
variable {i : Instr} {s : State} {f : Fault} {info : Nat}

/-- The bounds check answers the first address of an access that is outside memory (R52, R200). -/
theorem accessFault_iff_firstOutside {n : Nat} : accessFault s n = some info ↔ FirstOutside s.index.toNat n info :=
  accessFault_eq_some.trans firstOutside_iff.symm

@[simp] theorem accessFault_zero : accessFault s 0 = none := accessFault_eq_none.2 (.inl rfl)

theorem execFault_ne_fetchBounds : execFault i s ≠ some (.fetchBounds, info) := by
  cases i <;> simp [execFault]

theorem execFault_memBounds_iff :
    execFault i s = some (.memBounds, info) ↔ FirstOutside s.index.toNat (accessBytes i) info := by
  rw [← accessFault_iff_firstOutside]
  cases i <;> simp [execFault, accessBytes]

theorem execFault_stackUnderflow_iff :
    execFault i s = some (.stackUnderflow, info) ↔ .ret = i ∧ s.stack = [] ∧ info = 0 := by
  cases i with
  | ret => simp [execFault, eq_comm]
  | _ => simp [execFault]

theorem execFault_stackOverflow_iff :
    execFault i s = some (.stackOverflow, info) ↔
      ∃ nnn, .call nnn = i ∧ s.stack.length = s.params.stackDepth ∧ info = s.params.stackDepth := by
  cases i with
  | call => simp [execFault, eq_comm]
  | _ => simp [execFault]

theorem execFault_keyIndex_iff :
    execFault i s = some (.keyIndex, info) ↔
      ∃ x, (.skipKeyDown x = i ∨ .skipKeyUp x = i) ∧ 15 < (reg s x).toNat ∧ info = (reg s x).toNat := by
  cases i with
  | skipKeyDown | skipKeyUp => simp [execFault, eq_comm]
  | _ => simp [execFault]

/-- R200's conditions on a state whose bytes at pc hold instruction `i` are those of the fault that `i` raises. -/
theorem faultCondition_of_fetches (hi : Fetches s i) : FaultCondition s info f ↔ execFault i s = some (f, info) := by
  cases f with
  | fetchBounds =>
    refine iff_of_false (fun h => ?_) execFault_ne_fetchBounds
    have := (firstOutside_iff.1 h).2.1
    have := hi.1
    omega
  | memBounds => simp [FaultCondition, hi.iff_eq, execFault_memBounds_iff]
  | stackUnderflow => simp only [FaultCondition, hi.iff_eq, execFault_stackUnderflow_iff]
  | stackOverflow => simp only [FaultCondition, hi.iff_eq, execFault_stackOverflow_iff]
  | keyIndex => simp only [FaultCondition, hi.iff_eq, execFault_keyIndex_iff]

/-- Where no instruction is fetched, the only condition of R200 that can hold is that of the fetch. -/
theorem faultCondition_of_no_fetch (h : ∀ i, ¬ Fetches s i) :
    FaultCondition s info f ↔ f = .fetchBounds ∧ FirstOutside s.pc.toNat 2 info := by
  cases f <;> simp [FaultCondition, h]

/-- The first of the two addresses at pc that is outside memory (R91). -/
theorem firstOutside_fetch_iff (h : 4096 ≤ s.pc.toNat + 1) :
    FirstOutside s.pc.toNat 2 info ↔ info = if 4096 ≤ s.pc.toNat then s.pc.toNat else s.pc.toNat + 1 := by
  rw [firstOutside_iff]
  split <;> omega

theorem not_firstOutside_fetch (h : s.pc.toNat + 1 < 4096) : ¬ FirstOutside s.pc.toNat 2 info := by
  rw [firstOutside_iff]
  omega

end

/-! What a step of a running core does (R91, R96, R204). -/

section
variable {i : Instr} {s : State}

theorem execFault_eq_none_of_faultOf (h : faultOf i = none) : execFault i s = none := by
  cases i with
  | ret | call | skipKeyDown | skipKeyUp | draw | bcd | storeRegs | loadRegs => cases h
  | _ => exact congrArg (Option.map (Fault.memBounds, ·)) (accessFault_zero (s := s))

/-- An instruction that can raise no fault completes (R205). -/
theorem exec_completes_of_faultOf (h : faultOf i = none) : ∃ u, exec i s = .next (retire u) ∧ FaultRegsKept s u := by
  obtain ⟨u, hu, hk⟩ | ⟨f, info, hf, -, -⟩ := exec_answers i s
  · exact ⟨u, hu, hk.faultRegs⟩
  · exact nomatch h.symm.trans hf

/-- An instruction takes the fault of `execFault`, or has none there and completes. -/
theorem exec_faults_or_completes (i : Instr) (s : State) :
    (∃ f info, execFault i s = some (f, info) ∧ exec i s = .next (takeFault f info (some (encode i)) s)) ∨
    (execFault i s = none ∧ ∃ u, exec i s = .next (retire u) ∧ FaultRegsKept s u) := by
  cases i with
  | ret =>
    cases h : s.stack.getLast? with
    | none => exact .inl ⟨_, _, if_pos (List.getLast?_eq_none_iff.1 h), exec_ret_faults h⟩
    | some w =>
      have hne : s.stack ≠ [] := fun e => by simp [e] at h
      exact .inr ⟨if_neg hne, _, exec_ret_completes h, rfl, rfl, rfl, rfl, rfl, rfl⟩
  | call nnn =>
    by_cases h : s.stack.length = s.params.stackDepth
    · exact .inl ⟨_, _, if_pos h, exec_call_faults h⟩
    · exact .inr ⟨if_neg h, _, exec_call_completes h, rfl, rfl, rfl, rfl, rfl, rfl⟩
  | skipKeyDown x =>
    by_cases h : 15 < (reg s x).toNat
    · exact .inl ⟨_, _, if_pos h, exec_skipKeyDown_faults h⟩
    · exact .inr ⟨if_neg h, _, exec_skipKeyDown_completes h, (kept_skip _ s).faultRegs⟩
  | skipKeyUp x =>
    by_cases h : 15 < (reg s x).toNat
    · exact .inl ⟨_, _, if_pos h, exec_skipKeyUp_faults h⟩
    · exact .inr ⟨if_neg h, _, exec_skipKeyUp_completes h, (kept_skip _ s).faultRegs⟩
  | draw x y n =>
    cases h : accessFault s n.toNat with
    | some a => exact .inl ⟨_, a, congrArg (Option.map _) h, exec_draw_faults h⟩
    | none => exact .inr ⟨congrArg (Option.map _) h, _, exec_draw_completes h, rfl, rfl, rfl, rfl, rfl, rfl⟩
  | bcd x =>
    cases h : accessFault s 3 with
    | some a => exact .inl ⟨_, a, congrArg (Option.map _) h, exec_bcd_faults h⟩
    | none => exact .inr ⟨congrArg (Option.map _) h, _, exec_bcd_completes h, rfl, rfl, rfl, rfl, rfl, rfl⟩
  | storeRegs x =>
    cases h : accessFault s (rangeCount x) with
    | some a => exact .inl ⟨_, a, congrArg (Option.map _) h, exec_storeRegs_faults h⟩
    | none =>
      have hin : effAddr s 0 + (regRange s x).length ≤ memSize := length_regRange s x ▸ access_inside h (Nat.succ_pos _)
      exact .inr ⟨congrArg (Option.map _) h, _, exec_storeRegs_completes h, (kept_writeBytes hin).faultRegs⟩
  | loadRegs x =>
    cases h : accessFault s (rangeCount x) with
    | some a => exact .inl ⟨_, a, congrArg (Option.map _) h, exec_loadRegs_faults h⟩
    | none =>
      exact .inr ⟨congrArg (Option.map _) h, _, exec_loadRegs_completes h, (kept_setRegsFrom _ _ s).faultRegs⟩
  | _ => exact .inr ⟨execFault_eq_none_of_faultOf rfl, exec_completes_of_faultOf rfl⟩

end

/-- The word that a fault of a step in state `s` records, if the fetch gave one (R204). -/
def faultWord (s : State) : Fault → Option Word
  | .fetchBounds => none
  | _ => some (readByte s s.pc.toNat ++ readByte s (s.pc.toNat + 1))

/-- A fetched instruction that faults has its own word recorded. -/
theorem faultWord_of_fetches {s : State} {i : Instr} {f : Fault} {info : Nat} (hi : Fetches s i)
    (h : execFault i s = some (f, info)) : faultWord s f = some (encode i) := by
  rw [hi.encode_eq]
  cases f with
  | fetchBounds => exact absurd h execFault_ne_fetchBounds
  | _ => rfl

theorem FaultRegsKept.retire {s u : State} (h : FaultRegsKept s u) : FaultRegsKept s (retire u) :=
  ⟨h.runState, h.faultCause, h.faultPc, h.faultOpcode, h.faultOpcodeValid, h.faultInfo⟩

/-- A step of a running core takes the one fault whose condition of R200 holds, or completes where none does. -/
theorem runInstruction_faults_or_completes (s : State) :
    (∃ f info, (∀ g b, FaultCondition s b g ↔ g = f ∧ b = info) ∧
      runInstruction s = .next (takeFault f info (faultWord s f) s)) ∨
    ((∀ g b, ¬ FaultCondition s b g) ∧
      ∃ t, runInstruction s = .next t ∧ FaultRegsKept s t ∧ t.keyPrev = s.hostKey) := by
  obtain ⟨hpc, hr⟩ | ⟨i, hi, hr⟩ | ⟨hpc, ⟨e, hd⟩, hr⟩ := runInstruction_cases s
  · refine .inl ⟨.fetchBounds, _, fun g b => ?_, hr⟩
    rw [faultCondition_of_no_fetch (not_fetches_of_outside hpc), firstOutside_fetch_iff hpc]
  · obtain ⟨f, info, hf, hx⟩ | ⟨hf, u, hx, hk⟩ := exec_faults_or_completes i s
    · refine .inl ⟨f, info, fun g b => ?_, ?_⟩
      · simp [faultCondition_of_fetches hi, hf, eq_comm]
      · rw [hr, hx, faultWord_of_fetches hi hf]
    · refine .inr ⟨fun g b => ?_, _, hr.trans hx, hk.retire, (exec_hostSideKept hx).hostKey⟩
      simp [faultCondition_of_fetches hi, hf]
  · refine .inr ⟨fun g b h => ?_, _, hr, (onlyChanges_advance s).faultRegs, rfl⟩
    exact not_firstOutside_fetch hpc ((faultCondition_of_no_fetch (not_fetches_of_rejected hd)).1 h).2

/-- Settles O9: the step takes the one fault whose condition holds, or completes where none does. -/
theorem stepFaultsExactlyAsListed : Obligations.StepFaultsExactlyAsListed := by
  intro s hrun hin
  rw [step_of_running hrun hin]
  obtain ⟨f, info, hcond, hr⟩ | ⟨hnone, t, ht, hregs, hkeys⟩ := runInstruction_faults_or_completes s
  · refine ⟨fun g b h => ?_, fun g b t h ht => ?_, fun g g' b b' h h' => ?_, fun hno => ?_⟩
    · obtain ⟨rfl, rfl⟩ := (hcond g b).1 h
      rw [hr]
      cases g <;> rfl
    · obtain ⟨rfl, rfl⟩ := (hcond g b).1 h
      rw [hr] at ht
      cases ht
      exact ⟨rfl, by cases g <;> rfl⟩
    · obtain ⟨rfl, rfl⟩ := (hcond g b).1 h
      obtain ⟨rfl, rfl⟩ := (hcond g' b').1 h'
      exact ⟨rfl, rfl⟩
    · exact absurd ((hcond f info).2 ⟨rfl, rfl⟩) (hno f info)
  · exact ⟨fun g b h => absurd h (hnone g b), fun g b _ h => absurd h (hnone g b),
      fun g _ b _ h => absurd h (hnone g b), fun _ => ⟨t, ht, hregs.runState.trans hrun, hregs, hkeys⟩⟩

/-! The list of events is no part of a step (R222; assumption log 4). -/

/-- The same core with other events still to come. -/
def withInputs (es : List Event) (s : State) : State := { s with inputs := es }

section
variable {s : State} (es : List Event)

theorem writeBytes_withInputs (a : Nat) (l : List Byte) (s : State) :
    writeBytes a l (withInputs es s) = withInputs es (writeBytes a l s) := by
  induction l generalizing a s with
  | nil => rfl
  | cons x rest ih => exact ih (a + 1) (writeByte a x s)

theorem setRegsFrom_withInputs (k : Nat) (l : List Byte) (s : State) :
    setRegsFrom k l (withInputs es s) = withInputs es (setRegsFrom k l s) := by
  induction l generalizing k s with
  | nil => rfl
  | cons b rest ih => exact ih (k + 1) (setReg (BitVec.ofNat 4 k) b s)

theorem skip_withInputs (c : Bool) (s : State) :
    (if c then advance (advance (withInputs es s)) else advance (withInputs es s)) =
      withInputs es (if c then advance (advance s) else advance s) := by
  cases c <;> rfl

/-- An instruction answers a next state, the same one whatever events are still to come. -/
theorem exec_withInputs (i : Instr) (s : State) :
    ∃ t, exec i s = .next t ∧ exec i (withInputs es s) = .next (withInputs es t) := by
  cases i with
  | skipEqImm x nn | skipNeImm x nn =>
    exact ⟨_, rfl, congrArg complete (skip_withInputs es _ s)⟩
  | skipEqReg x y | skipNeReg x y =>
    exact ⟨_, rfl, congrArg complete (skip_withInputs es _ s)⟩
  | addToIndex x =>
    by_cases h : indexOverflow (indexSum s.index (reg s x)) = true
    · exact ⟨_, exec_addToIndex_overflows h, exec_addToIndex_overflows (s := withInputs es s) h⟩
    · exact ⟨_, exec_addToIndex_stays h, exec_addToIndex_stays (s := withInputs es s) h⟩
  | getKeyBlocking x =>
    cases h : freshKeys s with
    | nil => exact ⟨_, exec_getKeyBlocking_waits h, exec_getKeyBlocking_waits (s := withInputs es s) h⟩
    | cons k ks => exact ⟨_, exec_getKeyBlocking_takes h, exec_getKeyBlocking_takes (s := withInputs es s) h⟩
  | ret =>
    cases h : s.stack.getLast? with
    | none => exact ⟨_, exec_ret_faults h, exec_ret_faults (s := withInputs es s) h⟩
    | some w => exact ⟨_, exec_ret_completes h, exec_ret_completes (s := withInputs es s) h⟩
  | call nnn =>
    by_cases h : s.stack.length = s.params.stackDepth
    · exact ⟨_, exec_call_faults h, exec_call_faults (s := withInputs es s) h⟩
    · exact ⟨_, exec_call_completes h, exec_call_completes (s := withInputs es s) h⟩
  | skipKeyDown x =>
    by_cases h : 15 < (reg s x).toNat
    · exact ⟨_, exec_skipKeyDown_faults h, exec_skipKeyDown_faults (s := withInputs es s) h⟩
    · refine ⟨_, exec_skipKeyDown_completes h, (exec_skipKeyDown_completes (s := withInputs es s) h).trans ?_⟩
      exact congrArg complete (skip_withInputs es _ s)
  | skipKeyUp x =>
    by_cases h : 15 < (reg s x).toNat
    · exact ⟨_, exec_skipKeyUp_faults h, exec_skipKeyUp_faults (s := withInputs es s) h⟩
    · refine ⟨_, exec_skipKeyUp_completes h, (exec_skipKeyUp_completes (s := withInputs es s) h).trans ?_⟩
      exact congrArg complete (skip_withInputs es _ s)
  | draw x y n =>
    cases h : accessFault s n.toNat with
    | some a => exact ⟨_, exec_draw_faults h, exec_draw_faults (s := withInputs es s) h⟩
    | none => exact ⟨_, exec_draw_completes h, exec_draw_completes (s := withInputs es s) h⟩
  | bcd x =>
    cases h : accessFault s 3 with
    | some a => exact ⟨_, exec_bcd_faults h, exec_bcd_faults (s := withInputs es s) h⟩
    | none => exact ⟨_, exec_bcd_completes h, exec_bcd_completes (s := withInputs es s) h⟩
  | storeRegs x =>
    cases h : accessFault s (rangeCount x) with
    | some a => exact ⟨_, exec_storeRegs_faults h, exec_storeRegs_faults (s := withInputs es s) h⟩
    | none =>
      refine ⟨_, exec_storeRegs_completes h, (exec_storeRegs_completes (s := withInputs es s) h).trans ?_⟩
      exact congrArg complete (writeBytes_withInputs es _ _ (advance s))
  | loadRegs x =>
    cases h : accessFault s (rangeCount x) with
    | some a => exact ⟨_, exec_loadRegs_faults h, exec_loadRegs_faults (s := withInputs es s) h⟩
    | none =>
      refine ⟨_, exec_loadRegs_completes h, (exec_loadRegs_completes (s := withInputs es s) h).trans ?_⟩
      exact congrArg complete (setRegsFrom_withInputs es _ _ (advance s))
  | _ => exact ⟨_, rfl, rfl⟩

theorem runInstruction_withInputs (s : State) :
    ∃ t, runInstruction s = .next t ∧ runInstruction (withInputs es s) = .next (withInputs es t) := by
  obtain ⟨hpc, hr⟩ | ⟨i, hi, hr⟩ | ⟨hpc, ⟨e, hd⟩, hr⟩ := runInstruction_cases s
  · exact ⟨_, hr, runInstruction_of_outside (s := withInputs es s) hpc⟩
  · obtain ⟨t, ht, ht'⟩ := exec_withInputs es i s
    exact ⟨t, hr.trans ht, (runInstruction_of_fetches (s := withInputs es s) hi).trans ht'⟩
  · exact ⟨_, hr, runInstruction_of_rejected (s := withInputs es s) hpc hd⟩

theorem eventStep_withInputs (s : State) :
    ∃ t, eventStep s = .next t ∧ eventStep (withInputs es s) = .next (withInputs es t) := by
  by_cases hrun : s.runState = .running
  · rw [eventStep_of_running hrun, eventStep_of_running (s := withInputs es s) hrun]
    exact runInstruction_withInputs es s
  · exact ⟨s, eventStep_of_not_running hrun, eventStep_of_not_running (s := withInputs es s) hrun⟩

end

/-- Settles O55: both forms are a Step event, in cores that differ in the events still to come. -/
theorem listedStepActsAsUnlisted : Obligations.ListedStepActsAsUnlisted := by
  intro s rest h
  rw [step_of_no_inputs rfl, step_of_listed_step h]
  exact eventStep_withInputs rest { s with inputs := [] }

end Sys2Proof.Machine

/-!
PROOFS. Control transfer (O14 to O16, O18 to O20; CALL, O17, stands with the frame lemmas). The four skips and the two jumps end in
one shared operation each, `skipIf` and `jumpTo`: what it does and leaves unchanged is said once, over its test or its target.
-/

namespace Sys2Proof.Machine

/-! RET (R28, R100). -/

/-- R100: with an entry on the stack, RET completes and pops it. -/
theorem exec_ret_pops {s : State} {l : List Word} {w : Word} (h : s.stack = l ++ [w]) :
    ∃ t, exec .ret s = .next t ∧ t.pc = w ∧ t.stack = l ∧ OnlyChanges [.stack] s t := by
  have hlast : s.stack.getLast? = some w := by rw [h, List.getLast?_concat]
  have hrest : s.stack.dropLast = l := by rw [h, List.dropLast_concat]
  have hu := exec_ret_completes hlast
  exact ⟨_, hu, rfl, hrest, exec_hostSideKept hu, ⟨rfl, rfl, rfl, rfl, rfl, rfl⟩, rfl, fun _ => exec_unchanged hu⟩

/-- Settles O14, from the two endings of RET and the word of its instruction. -/
theorem returnPopsOrUnderflows : Obligations.ReturnPopsOrUnderflows := by
  refine ⟨decodeWord_encode (i := .ret) rfl, fun _ _ _ => exec_ret_pops, fun s hempty => ?_⟩
  exact (exec_ret_faults (List.getLast?_eq_none_iff.2 hempty)).trans rfl

/-- R102: a CALL that does not fault has pushed the address of the instruction after it. -/
theorem exec_call_stack {nnn : Addr} {s t : State} (h : exec (.call nnn) s = .next t) (ht : Safe t) :
    t.stack = s.stack ++ [s.pc + 2] := by
  obtain rfl | ⟨-, rfl⟩ := exec_call_inv h
  · rfl
  · exact absurd rfl ht

/-- Settles O18: the entry that the call pushed is the one that the return pops. -/
theorem returnUndoesCall : Obligations.ReturnUndoesCall :=
  fun _ _ _ _ hcall hsafe hstack => exec_ret_pops (hstack.trans (exec_call_stack hcall hsafe))

/-! The skips (R104 to R107). -/

section
variable {n : Nat} (a b : BitVec n) (s : State)

/-- The frame of a skip: pc and KeyPrev are all that it writes, taken or not. -/
theorem onlyChanges_skip (c : Bool) : OnlyChanges [] s (retire (if c then advance (advance s) else advance s)) :=
  onlyChanges_retire (kept_skip c s).hostSide (kept_skip c s).faultRegs fun k _ => (Unchanged.refl k s).skip c

/-- A skip on equality, its test read over the unsigned values (R11). -/
theorem skipIf_beq : ∃ t, skipIf (a == b) s = .next t ∧
    t.pc = (if a.toNat = b.toNat then s.pc + 4 else s.pc + 2) ∧ OnlyChanges [] s t := by
  refine ⟨_, rfl, (skip_pc _ s).trans ?_, onlyChanges_skip s _⟩
  simp only [beq_iff_eq, BitVec.toNat_inj]

/-- A skip on difference: the other way round. -/
theorem skipIf_bne : ∃ t, skipIf (a != b) s = .next t ∧
    t.pc = (if a.toNat = b.toNat then s.pc + 2 else s.pc + 4) ∧ OnlyChanges [] s t := by
  refine ⟨_, rfl, (skip_pc _ s).trans ?_, onlyChanges_skip s _⟩
  simp only [bne_iff_ne, BitVec.toNat_inj, ite_not]

end

/-- Settles O19, from the two skips on bytes and the words of their instructions. -/
theorem skipsCompareImmediate : Obligations.SkipsCompareImmediate := fun x nn s =>
  ⟨decodeWord_encode (i := .skipEqImm x nn) rfl, decodeWord_encode (i := .skipNeImm x nn) rfl,
    skipIf_beq (reg s x) nn s, skipIf_bne (reg s x) nn s⟩

/-- R77: a word 5XYn with n ≠ 0 selects no instruction. -/
theorem decodeWord_unrecognised5 (x y : Nibble) {n : Nibble} (hn : n ≠ 0) :
    decodeWord (0x5#4 ++ x ++ y ++ n) = .error .unrecognised5 :=
  (decodeWord_formatXY 0x5#4 x y n).trans (if_neg hn)

/-- R77: a word 9XYn with n ≠ 0 selects no instruction. -/
theorem decodeWord_unrecognised9 (x y : Nibble) {n : Nibble} (hn : n ≠ 0) :
    decodeWord (0x9#4 ++ x ++ y ++ n) = .error .unrecognised9 :=
  (decodeWord_formatXY 0x9#4 x y n).trans (if_neg hn)

/-- Settles O20, as O19, with the words that the low nibble rejects. -/
theorem skipsCompareRegisters : Obligations.SkipsCompareRegisters := fun x y s =>
  ⟨⟨decodeWord_encode (i := .skipEqReg x y) rfl, decodeWord_encode (i := .skipNeReg x y) rfl,
      fun _ hn => ⟨decodeWord_unrecognised5 x y hn, decodeWord_unrecognised9 x y hn⟩⟩,
    skipIf_beq (reg s x) (reg s y) s, skipIf_bne (reg s x) (reg s y) s⟩

/-! The jumps (R101, R103). -/

/-- R108: a jump leaves pc at its target, unchecked, and beside that writes only KeyPrev. -/
theorem jumpTo_reaches {w : Word} {a : Nat} (hw : w.toNat = a) (s : State) :
    ∃ t, jumpTo w s = .next t ∧ t.pc.toNat = a ∧ OnlyChanges [] s t :=
  ⟨_, rfl, hw, onlyChanges_retire ⟨rfl, rfl, rfl, rfl, rfl⟩ ⟨rfl, rfl, rfl, rfl, rfl, rfl⟩
    fun c _ => (Unchanged.refl c s).advance.setPc⟩

/-- Settles O15: the 12 bits of NNN fit pc. -/
theorem jumpAssignsPc : Obligations.JumpAssignsPc := fun nnn s =>
  ⟨decodeWord_encode (i := .jump nnn) rfl, jumpTo_reaches (BitVec.toNat_setWidth_of_le (by decide)) s⟩

/-- Settles O16: the sum fits pc. -/
theorem jumpOffsetAddsV0 : Obligations.JumpOffsetAddsV0 := fun nnn s =>
  ⟨decodeWord_encode (i := .jumpOffset nnn) rfl, jumpTo_reaches (jumpOffset_target_toNat nnn (reg s 0)) s⟩

end Sys2Proof.Machine

/-!
PROOFS. Registers and arithmetic (O21 to O26). The meanings end in one of three writes of V: a register, a result then its flag, a
flag then its result (R97). What each leaves in V and what it keeps is said once, over the bytes written; an obligation adds the
word of its instruction and the value of those bytes (R132).
-/

namespace Sys2Proof.Machine

/-! The values written, as numbers (R11, R132). -/

section
variable (a b : Byte)

theorem sumByte_toNat : (sumByte a b).toNat = (a.toNat + b.toNat) % 256 := by
  rw [sumByte_eq, BitVec.toNat_add]

theorem diffByte_toInt : ((diffByte a b).toNat : Int) = (a.toNat - b.toNat : Int) % 256 := by
  have := b.isLt
  rw [diffByte_eq, BitVec.toNat_sub]
  omega

theorem shrByte_toNat : (shrByte a).toNat = a.toNat / 2 := by
  rw [shrByte_eq, BitVec.toNat_ushiftRight, Nat.shiftRight_eq_div_pow]

theorem shlByte_toNat : (shlByte a).toNat = 2 * a.toNat % 256 := by
  rw [shlByte_eq, BitVec.toNat_shiftLeft, Nat.shiftLeft_eq, Nat.mul_comm]

theorem flagByte_carry_toNat : (flagByte (carry a b)).toNat = if a.toNat + b.toNat > 255 then 1 else 0 := by
  simp only [flagByte_toNat, carry, decide_eq_true_eq]

theorem flagByte_notBorrow_toNat : (flagByte (notBorrow a b)).toNat = if a.toNat ≥ b.toNat then 1 else 0 := by
  simp only [flagByte_toNat, notBorrow, decide_eq_true_eq]

/-- R22: a flag that takes a bit of a byte holds that bit. -/
theorem flagByte_getLsbD_toNat (k : Nat) : (flagByte (a.getLsbD k)).toNat = a.toNat / 2 ^ k % 2 := by
  rw [← Nat.toNat_testBit, flagByte_toNat]
  exact (Bool.cond_eq_ite ..).symm

theorem flagByte_lowBit_toNat : (flagByte (lowBit a)).toNat = a.toNat % 2 := by
  rw [lowBit, flagByte_getLsbD_toNat, Nat.pow_zero, Nat.div_one]

theorem flagByte_highBit_toNat : (flagByte (highBit a)).toNat = a.toNat / 128 := by
  have := a.isLt
  rw [highBit, flagByte_getLsbD_toNat]
  omega

end

/-! What a step that writes V keeps (R23, R91, R97). -/

section
variable (x : Nibble) (b : Byte) (f : Bool) (s : State)

/-- Beside pc and KeyPrev, a step whose execute phase writes V changes V alone. -/
theorem onlyChanges_writeV (v : Vector Byte 16) : OnlyChanges [.regs] s (retire { advance s with v := v }) :=
  onlyChanges_retire ⟨rfl, rfl, rfl, rfl, rfl⟩ ⟨rfl, rfl, rfl, rfl, rfl, rfl⟩ fun c hc => by
    have h := (Unchanged.refl c s).advance
    cases c with
    | regs => exact absurd (List.mem_singleton_self _) hc
    | _ => exact h

/-- A write of one register keeps the others, and leaves pc advanced. -/
theorem setReg_frame : RegsKeptBut [x] s (retire (setReg x b (advance s))) ∧
    (retire (setReg x b (advance s))).pc = s.pc + 2 ∧ OnlyChanges [.regs] s (retire (setReg x b (advance s))) :=
  ⟨regsKeptBut_retire_setReg fun _ => rfl, rfl, onlyChanges_writeV s _⟩

/-- R97: the flag after the result. VX has the result unless X = F; VF has the flag. -/
theorem resultThenFlag_writes : ∃ t, complete (writeResultThenFlag x b f (advance s)) = .next t ∧
    (x ≠ 15 → reg t x = b) ∧ reg t 15 = flagByte f ∧
    RegsKeptBut [x, 15] s t ∧ t.pc = s.pc + 2 ∧ OnlyChanges [.regs] s t := by
  refine ⟨_, rfl, fun hx => ?_, ?_, fun r hr => ?_, rfl, onlyChanges_writeV s _⟩
  · exact (reg_writeResultThenFlag ..).trans ((if_neg hx).trans (if_pos rfl))
  · exact (reg_writeResultThenFlag ..).trans (if_pos rfl)
  · obtain ⟨hx, hf⟩ : r ≠ x ∧ r ≠ 15 := by simpa using hr
    exact reg_writeResultThenFlag_other hx hf

/-- R97: the result after the flag. VX has the result; VF has the flag unless X = F. -/
theorem flagThenResult_writes : ∃ t, complete (writeFlagThenResult x b f (advance s)) = .next t ∧
    reg t x = b ∧ (x ≠ 15 → reg t 15 = flagByte f) ∧
    RegsKeptBut [x, 15] s t ∧ t.pc = s.pc + 2 ∧ OnlyChanges [.regs] s t := by
  refine ⟨_, rfl, ?_, fun hx => ?_, fun r hr => ?_, rfl, onlyChanges_writeV s _⟩
  · exact (reg_writeFlagThenResult ..).trans (if_pos rfl)
  · exact (reg_writeFlagThenResult ..).trans ((if_neg hx.symm).trans (if_pos rfl))
  · obtain ⟨hx, hf⟩ : r ≠ x ∧ r ≠ 15 := by simpa using hr
    exact reg_writeFlagThenResult_other hx hf

end

/-! The instructions. -/

/-- Settles O21: both write VX alone. -/
theorem immediateFormsWriteVx : Obligations.ImmediateFormsWriteVx := fun x nn s =>
  ⟨decodeWord_encode (i := .setImm x nn) rfl, decodeWord_encode (i := .addImm x nn) rfl,
    ⟨_, rfl, reg_retire_setReg, setReg_frame x _ s⟩,
    ⟨_, rfl, by rw [reg_retire_setReg, sumByte_toNat], setReg_frame x _ s⟩⟩

/-- Settles O22: each writes VX alone, bit by bit from VX and VY before the step. -/
theorem logicFormsWriteVxOnly : Obligations.LogicFormsWriteVxOnly := fun x y s =>
  ⟨⟨decodeWord_encode (i := .aluCopy x y) rfl, decodeWord_encode (i := .aluOr x y) rfl,
      decodeWord_encode (i := .aluAnd x y) rfl, decodeWord_encode (i := .aluXor x y) rfl⟩,
    ⟨_, rfl, reg_retire_setReg, setReg_frame x _ s⟩,
    ⟨_, rfl, fun _ => by rw [reg_retire_setReg, BitVec.getLsbD_or], setReg_frame x _ s⟩,
    ⟨_, rfl, fun _ => by rw [reg_retire_setReg, BitVec.getLsbD_and], setReg_frame x _ s⟩,
    ⟨_, rfl, fun _ => by rw [reg_retire_setReg, BitVec.getLsbD_xor], setReg_frame x _ s⟩⟩

/-- Settles O23: the flag is written last. -/
theorem addSetsCarry : Obligations.AddSetsCarry := by
  intro x y s
  obtain ⟨t, ht, hresult, hflag, hframe⟩ :=
    resultThenFlag_writes x (sumByte (reg s x) (reg s y)) (carry (reg s x) (reg s y)) s
  exact ⟨decodeWord_encode (i := .aluAdd x y) rfl, t, ht, fun hx => by rw [hresult hx, sumByte_toNat],
    by rw [hflag, flagByte_carry_toNat], hframe⟩

/-- R127, R129: the difference of two bytes in VX and its not-borrow in VF, whichever of VX and VY is taken from the other. -/
theorem difference_writes (x : Nibble) (a b : Byte) (s : State) :
    ∃ t, complete (writeFlagThenResult x (diffByte a b) (notBorrow a b) (advance s)) = .next t ∧
      ((reg t x).toNat : Int) = (a.toNat - b.toNat : Int) % 256 ∧
      (x ≠ 15 → (reg t 15).toNat = if a.toNat ≥ b.toNat then 1 else 0) ∧
      RegsKeptBut [x, 15] s t ∧ t.pc = s.pc + 2 ∧ OnlyChanges [.regs] s t := by
  obtain ⟨t, ht, hresult, hflag, hframe⟩ := flagThenResult_writes x (diffByte a b) (notBorrow a b) s
  exact ⟨t, ht, by rw [hresult, diffByte_toInt], fun hx => by rw [hflag hx, flagByte_notBorrow_toNat], hframe⟩

/-- Settles O24: one subtraction, with its operands in either order. -/
theorem subtractSetsNotBorrow : Obligations.SubtractSetsNotBorrow := fun x y s =>
  ⟨decodeWord_encode (i := .aluSub x y) rfl, decodeWord_encode (i := .aluSubn x y) rfl,
    difference_writes x (reg s x) (reg s y) s, difference_writes x (reg s y) (reg s x) s⟩

/-- Settles O25: the result is written last, and VY is not read. -/
theorem shiftsInPlace : Obligations.ShiftsInPlace := by
  intro x y s
  refine ⟨decodeWord_encode (i := .aluShr x y) rfl, decodeWord_encode (i := .aluShl x y) rfl, ?right, ?left⟩
  case right =>
    obtain ⟨t, ht, hresult, hflag, hframe⟩ := flagThenResult_writes x (shrByte (reg s x)) (lowBit (reg s x)) s
    exact ⟨t, ht, by rw [hresult, shrByte_toNat], fun hx => by rw [hflag hx, flagByte_lowBit_toNat], hframe⟩
  case left =>
    obtain ⟨t, ht, hresult, hflag, hframe⟩ := flagThenResult_writes x (shlByte (reg s x)) (highBit (reg s x)) s
    exact ⟨t, ht, by rw [hresult, shlByte_toNat], fun hx => by rw [hflag hx, flagByte_highBit_toNat], hframe⟩

/-- R228: a step that writes a register after a random draw changes V and the draw count alone, beside pc and KeyPrev. -/
theorem onlyChanges_drawThenSetReg (x : Nibble) (b : Byte) (s : State) :
    OnlyChanges [.regs, .draws] s (retire (setReg x b (advance (countDraw s)))) :=
  onlyChanges_retire ⟨rfl, rfl, rfl, rfl, rfl⟩ ⟨rfl, rfl, rfl, rfl, rfl, rfl⟩ fun c hc => by
    obtain ⟨hregs, hdraws⟩ : c ≠ .regs ∧ c ≠ .draws := by simpa using hc
    exact ((Unchanged.refl c s).countDraw hdraws).advance.setReg hregs

/-- Settles O26, for whatever byte the draw gives. -/
theorem randomIsMaskedDraw : Obligations.RandomIsMaskedDraw := fun x nn s =>
  ⟨decodeWord_encode (i := .random x nn) rfl, _, rfl,
    fun _ => by rw [reg_retire_setReg, BitVec.getLsbD_and, nextRandom],
    rfl, regsKeptBut_retire_setReg fun _ => rfl, rfl, onlyChanges_drawThenSetReg x _ s⟩

end Sys2Proof.Machine

/-!
PROOFS. The index register and memory (O27 to O33). Each meaning ends in one of three writes: of I, of bytes at I, of a range of
V. What such a write leaves and keeps is said once, over what is written. The bounds check stands before the access, so an
obligation has one clause for each of its two answers (R52, R96).
-/

namespace Sys2Proof.Machine

/-! The writes of I: ANNN, FX29, FX1E (R150 to R152). -/

/-- Beside pc and KeyPrev, a step whose execute phase writes I changes I alone. -/
theorem onlyChanges_setIndexReg (w : Word) (s : State) : OnlyChanges [.index] s (retire (setIndexReg w (advance s))) :=
  onlyChanges_retire ⟨rfl, rfl, rfl, rfl, rfl⟩ ⟨rfl, rfl, rfl, rfl, rfl, rfl⟩ fun c hc =>
    (Unchanged.refl c s).advance.setIndexReg (List.ne_of_not_mem_cons hc)

/-- Settles O27: the 12 bits of NNN fit I. -/
theorem setIndexLoadsImmediate : Obligations.SetIndexLoadsImmediate := fun nnn s =>
  ⟨decodeWord_encode (i := .setIndex nnn) rfl, _, rfl, BitVec.toNat_setWidth_of_le (by decide), rfl,
    onlyChanges_setIndexReg _ s⟩

/-- R9, R152: the font ends below 0x200, so the address of a glyph fits I. -/
theorem glyphAddr_toNat {p : Params} (hp : p.wf = true) (b : Byte) :
    (glyphAddr p b).toNat = p.fontBase + 5 * (b.toNat % 16) := by
  have hfont : p.fontBase + 80 ≤ 0x200 := by
    simp only [Params.wf, Bool.and_eq_true, decide_eq_true_eq] at hp
    exact hp.2
  rw [glyphAddr, lowNibble_toNat, BitVec.toNat_ofNat, Nat.mod_eq_of_lt (by omega)]

/-- Settles O28, from the address of a glyph; that the step completes and what it keeps do not rest on the parameters. -/
theorem fontCharSelectsGlyph : Obligations.FontCharSelectsGlyph := fun x s =>
  ⟨decodeWord_encode (i := .fontChar x) rfl, _, rfl, fun hp => glyphAddr_toNat hp (reg s x), rfl,
    onlyChanges_setIndexReg _ s⟩

theorem indexSum_toNat (w : Word) (b : Byte) : (indexSum w b).toNat = (w.toNat + b.toNat) % 65536 :=
  (BitVec.toNat_ofNat ..).trans (Nat.mod_mod ..)

theorem indexOverflow_iff {w : Word} : indexOverflow w = true ↔ 0x0FFF < w.toNat := decide_eq_true_iff

/-- A step that keeps a frame keeps every wider one. -/
theorem OnlyChanges.mono {cs ds : List Component} {s t : State} (h : OnlyChanges cs s t) (hsub : cs ⊆ ds) :
    OnlyChanges ds s t :=
  ⟨h.hostSide, h.faultRegs, h.keyPrev, fun c hc => h.rest c fun hcs => hc (hsub hcs)⟩

/-- R151: a step that writes I and then a register changes I and V alone, beside pc and KeyPrev. -/
theorem onlyChanges_setIndexThenSetReg (w : Word) (x : Nibble) (b : Byte) (s : State) :
    OnlyChanges [.index, .regs] s (retire (setReg x b (setIndexReg w (advance s)))) :=
  onlyChanges_retire ⟨rfl, rfl, rfl, rfl, rfl⟩ ⟨rfl, rfl, rfl, rfl, rfl, rfl⟩ fun c hc => by
    obtain ⟨hindex, hregs⟩ : c ≠ .index ∧ c ≠ .regs := by simpa using hc
    exact ((Unchanged.refl c s).advance.setIndexReg hindex).setReg hregs

/-- Settles O29, by whether the new I exceeds 0x0FFF, which decides whether VF is written. -/
theorem addToIndexFlagsOverflow : Obligations.AddToIndexFlagsOverflow := by
  intro x s
  refine ⟨decodeWord_encode (i := .addToIndex x) rfl, ?_⟩
  by_cases ho : indexOverflow (indexSum s.index (reg s x)) = true
  · exact ⟨_, exec_addToIndex_overflows ho, indexSum_toNat ..,
      reg_retire_setReg.trans (if_pos (indexOverflow_iff.1 ho)).symm,
      regsKeptBut_retire_setReg fun _ => rfl, rfl, onlyChanges_setIndexThenSetReg _ vf 1 s⟩
  · exact ⟨_, exec_addToIndex_stays ho, indexSum_toNat .., (if_neg (mt indexOverflow_iff.2 ho)).symm,
      fun _ _ => rfl, rfl, (onlyChanges_setIndexReg _ s).mono (by simp)⟩

/-! The bounds check of an access of n + 1 bytes (R52). -/

section
variable {s : State} {n : Nat}

theorem accessFault_succ_inside (h : s.index.toNat + n < 4096) : accessFault s (n + 1) = none :=
  accessFault_eq_none.2 (.inr h)

theorem accessFault_succ_outside (h : 4096 ≤ s.index.toNat + n) :
    accessFault s (n + 1) = some (max s.index.toNat 4096) :=
  accessFault_eq_some.2 ⟨Nat.succ_pos n, Nat.lt_succ_of_le h, rfl⟩

end

/-! The stores: FX33, FX55 (R153, R154). -/

section
variable {a : Nat} {l : List Byte} {s : State}

/-- A step whose execute phase writes bytes inside memory keeps all other bytes and all other components. -/
theorem writeBytes_frame (hin : a + l.length ≤ memSize) :
    BytesKeptOutside a l.length s (retire (writeBytes a l (advance s))) ∧
      (retire (writeBytes a l (advance s))).pc = s.pc + 2 ∧ OnlyChanges [.mem] s (retire (writeBytes a l (advance s))) := by
  have hk : Kept s (writeBytes a l (advance s)) := kept_writeBytes hin
  refine ⟨fun _ hb => readByte_writeBytes_outside hb, writeBytes_pc a l (advance s), ?_⟩
  exact onlyChanges_retire hk.hostSide hk.faultRegs fun c hc =>
    (Unchanged.refl c s).advance.writeBytes (List.ne_of_not_mem_cons hc)

/-- R153: the k-th byte written reads back as the number it was made from. -/
theorem readByte_written_toNat {k v : Nat} (hm : Memory.wf s.params s.mem) (hin : a + l.length ≤ memSize)
    (hk : l[k]? = some (BitVec.ofNat 8 v)) (hv : v < 256) :
    (readByte (retire (writeBytes a l (advance s))) (a + k)).toNat = v := by
  obtain ⟨hlt, hget⟩ := List.getElem?_eq_some_iff.1 hk
  rw [readByte_retire, readByte_writeBytes (s := advance s) hm hin k hlt, hget, BitVec.toNat_ofNat, Nat.mod_eq_of_lt hv]

end

/-- Settles O30: each digit is below 256, so its byte holds it. -/
theorem bcdStoresDigits : Obligations.BcdStoresDigits := by
  intro x s hm
  refine ⟨decodeWord_encode (i := .bcd x) rfl, fun hin => ?_, fun hout => exec_bcd_faults (accessFault_succ_outside hout)⟩
  have hlen : s.index.toNat + (bcdDigits (reg s x)).length ≤ memSize := hin
  have hbyte := (reg s x).isLt
  exact ⟨_, exec_bcd_completes (accessFault_succ_inside hin), readByte_written_toNat (k := 0) hm hlen rfl (by omega),
    readByte_written_toNat (k := 1) hm hlen rfl (by omega), readByte_written_toNat (k := 2) hm hlen rfl (by omega),
    writeBytes_frame hlen⟩

/-- R154: a store of V0..VX leaves V[r] at I + r. -/
theorem readByte_storedRegs {x r : Nibble} {s : State} (hm : Memory.wf s.params s.mem)
    (hin : effAddr s 0 + (regRange s x).length ≤ memSize) (hr : r ≤ x) :
    readByte (retire (writeBytes (effAddr s 0) (regRange s x) (advance s))) (s.index.toNat + r.toNat) = reg s r := by
  have hlt : r.toNat < (regRange s x).length := by
    rw [length_regRange]
    exact Nat.lt_succ_of_le hr
  rw [readByte_retire]
  exact (readByte_writeBytes (s := advance s) hm hin r.toNat hlt).trans (getElem_regRange_toNat s x r hlt)

/-- Settles O31, from what a store of V0..VX leaves and keeps. -/
theorem storeRegsWritesRange : Obligations.StoreRegsWritesRange := by
  intro x s hm
  refine ⟨decodeWord_encode (i := .storeRegs x) rfl, fun hin => ?_,
    fun hout => exec_storeRegs_faults (accessFault_succ_outside hout)⟩
  have hlen : effAddr s 0 + (regRange s x).length ≤ memSize := by
    rw [length_regRange]
    exact hin
  refine ⟨_, exec_storeRegs_completes (accessFault_succ_inside hin), fun r => readByte_storedRegs hm hlen, ?_⟩
  rw [← length_regRange s x]
  exact writeBytes_frame hlen

/-! The load: FX65 (R155). -/

theorem length_bytesAtIndex (s : State) (n : Nat) : (bytesAtIndex s n).length = n := by simp [bytesAtIndex]

/-- R58: byte k of an access is the one at I + k. -/
theorem getElem?_bytesAtIndex (s : State) {n k : Nat} (hk : k < n) :
    (bytesAtIndex s n)[k]? = some (readByte s (s.index.toNat + k)) := by
  simp [bytesAtIndex, effAddr, hk]

/-- R155: the load of V0..VX gives V[r] the byte at I + r, and keeps the registers above VX. -/
theorem reg_setRegsFrom_bytesAtIndex (x r : Nibble) (s u : State) :
    reg (setRegsFrom 0 (bytesAtIndex s (rangeCount x)) u) r =
      if r ≤ x then readByte s (s.index.toNat + r.toNat) else reg u r := by
  by_cases hr : r ≤ x
  · have hlen : 0 + (bytesAtIndex s (rangeCount x)).length ≤ 16 := by
      rw [length_bytesAtIndex, Nat.zero_add]
      exact x.isLt
    have hlt : r.toNat < rangeCount x := Nat.lt_succ_of_le hr
    rw [if_pos hr, reg_setRegsFrom _ _ _ _ hlen, if_pos (Nat.zero_le _), Nat.sub_zero, List.getD_eq_getElem?_getD,
      getElem?_bytesAtIndex s hlt, Option.getD_some]
  · rw [if_neg hr, reg_setRegsFrom_above u (BitVec.not_le.1 hr)]

/-- R155: what a load inside memory leaves in V and what it keeps. -/
theorem exec_loadRegs_loads {x : Nibble} {s : State} (hin : s.index.toNat + x.toNat < 4096) :
    ∃ t, exec (.loadRegs x) s = .next t ∧
      (∀ r : Nibble, reg t r = if r ≤ x then readByte s (s.index.toNat + r.toNat) else reg s r) ∧
      t.pc = s.pc + 2 ∧ OnlyChanges [.regs] s t := by
  refine ⟨_, exec_loadRegs_completes (accessFault_succ_inside hin),
    fun r => reg_setRegsFrom_bytesAtIndex x r s (advance s), setRegsFrom_pc 0 _ (advance s), ?_⟩
  rw [setRegsFrom_eq]
  exact onlyChanges_writeV s _

/-- Settles O32, from what a load inside memory leaves and keeps. -/
theorem loadRegsReadsRange : Obligations.LoadRegsReadsRange := fun x _ =>
  ⟨decodeWord_encode (i := .loadRegs x) rfl, exec_loadRegs_loads,
    fun hout => exec_loadRegs_faults (accessFault_succ_outside hout)⟩

/-- Settles O33: a store that did not fault lies inside memory, so the load completes and reads the stored bytes. -/
theorem storeThenLoadRoundTrips : Obligations.StoreThenLoadRoundTrips := by
  intro x s t u hm hstore hsafe hbytes hindex
  obtain ⟨hlen, rfl⟩ := exec_storeRegs_of_safe hstore hsafe
  have hin : u.index.toNat + x.toNat < 4096 := by
    rw [hindex]
    rwa [length_regRange] at hlen
  obtain ⟨r, hload, hregs, -, hframe⟩ := exec_loadRegs_loads hin
  have hsame : r.index = u.index := hframe.rest .index (by decide)
  refine ⟨r, hload, fun k => ?_, hsame.trans hindex, hframe⟩
  rw [hregs k]
  by_cases hk : k ≤ x
  · rw [if_pos hk, if_pos hk, hbytes, hindex, readByte_storedRegs hm hlen hk]
  · rw [if_neg hk, if_neg hk]

end Sys2Proof.Machine

/-!
PROOFS. The display (O35 to O37). Both claims about DXYN rest on what one completed draw does to each pixel: it flips the
distinct pixels of `drawTargets`, so a second draw of the same pixels flips them back.
-/

namespace Sys2Proof.Machine

/-! The frame of a step that draws (R31, R170, R171). -/

/-- Beside pc and KeyPrev, a step whose execute phase writes the display changes the display alone. -/
theorem onlyChanges_setDisp (d : Display) (s : State) : OnlyChanges [.display] s (retire (setDisp d (advance s))) :=
  onlyChanges_retire ⟨rfl, rfl, rfl, rfl, rfl⟩ ⟨rfl, rfl, rfl, rfl, rfl, rfl⟩ fun c hc =>
    (Unchanged.refl c s).advance.setDisp (List.ne_of_not_mem_cons hc)

/-- A step that writes the display and then a register changes the display and V alone, beside pc and KeyPrev. -/
theorem onlyChanges_setDispThenSetReg (d : Display) (x : Nibble) (b : Byte) (s : State) :
    OnlyChanges [.regs, .display] s (retire (setReg x b (setDisp d (advance s)))) :=
  onlyChanges_retire ⟨rfl, rfl, rfl, rfl, rfl⟩ ⟨rfl, rfl, rfl, rfl, rfl, rfl⟩ fun c hc => by
    obtain ⟨hregs, hdisplay⟩ : c ≠ .regs ∧ c ≠ .display := by simpa using hc
    exact ((Unchanged.refl c s).advance.setDisp hdisplay).setReg hregs

/-- Settles O35: the display written is blank. -/
theorem clearTurnsEveryPixelOff : Obligations.ClearTurnsEveryPixelOff :=
  ⟨decodeWord_encode (i := .clear) rfl, fun s =>
    ⟨_, rfl, fun x y _ _ => pixelAt_blank x y, rfl, onlyChanges_setDisp blankDisplay s⟩⟩

/-! What a draw that completes leaves and keeps (R171). -/

/-- R171: drawing distinct pixels of the grid collides exactly when it turns a pixel of the grid off. -/
theorem hit_drawPixels_iff_turnsOff {l : List (Nat × Nat)} {d : Display} (hn : l.Nodup)
    (hg : ∀ p ∈ l, p.1 < 64 ∧ p.2 < 32) :
    (drawPixels l (d, false)).2 = true ↔ ∃ px py, px < 64 ∧ py < 32 ∧ pixelAt d px py = true ∧
      pixelAt (drawPixels l (d, false)).1 px py = false := by
  rw [hit_drawPixels hn hg, Bool.false_or, List.any_eq_true]
  constructor
  · rintro ⟨⟨px, py⟩, hmem, hon⟩
    obtain ⟨hx, hy⟩ := hg _ hmem
    exact ⟨px, py, hx, hy, hon, by simp [pixelAt_drawPixels hn hg, hmem, hon]⟩
  · rintro ⟨px, py, -, -, hon, hoff⟩
    have hmem : (px, py) ∈ l := by simpa [pixelAt_drawPixels hn hg, hon] using hoff
    exact ⟨(px, py), hmem, hon⟩

/-- State `t` is `s` after a DXYN that completed: its pixels flipped, VF the collision, all else as R171 leaves it. -/
structure Drawn (x y n : Nibble) (s t : State) : Prop where
  pixel : ∀ px py, pixelAt t.disp px py = (pixelAt s.disp px py ^^ decide ((px, py) ∈ drawTargets x y n s))
  collision : reg t 15 = 1 ↔ ∃ px py, px < 64 ∧ py < 32 ∧ pixelAt s.disp px py = true ∧ pixelAt t.disp px py = false
  flag : reg t 15 = 0 ∨ reg t 15 = 1
  regs : RegsKeptBut [15] s t
  pc : t.pc = s.pc + 2
  frame : OnlyChanges [.regs, .display] s t

section
variable {x y n : Nibble} {s t u : State}

theorem flagByte_eq_one {b : Bool} : flagByte b = 1 ↔ b = true := by cases b <;> decide

theorem flagByte_eq_zero_or_one (b : Bool) : flagByte b = 0 ∨ flagByte b = 1 := by cases b <;> decide

/-- A draw whose sprite lies inside memory completes (R52, R171). -/
theorem exec_draw_drawn (h : accessFault s n.toNat = none) : ∃ t, exec (.draw x y n) s = .next t ∧ Drawn x y n s t := by
  have hn := drawTargets_nodup x y n s
  refine ⟨_, exec_draw_completes h, fun px py => pixelAt_drawPixels hn drawTargets_grid px py, ?_, ?_,
    regsKeptBut_retire_setReg fun _ => rfl, rfl, onlyChanges_setDispThenSetReg _ vf _ s⟩
  · refine Iff.trans ?_ (hit_drawPixels_iff_turnsOff hn drawTargets_grid)
    exact (Eq.congr_left reg_retire_setReg).trans flagByte_eq_one
  · exact (flagByte_eq_zero_or_one _).imp reg_retire_setReg.trans reg_retire_setReg.trans

/-- A draw that did not fault found its sprite inside memory and completed (R52, R204). -/
theorem drawn_of_safe (h : exec (.draw x y n) s = .next t) (hs : Safe t) :
    accessFault s n.toNat = none ∧ Drawn x y n s t := by
  cases ha : accessFault s n.toNat with
  | none =>
    obtain ⟨t', ht', hd⟩ := exec_draw_drawn (x := x) (y := y) ha
    obtain rfl := next_inj ht' h
    exact ⟨rfl, hd⟩
  | some a =>
    obtain rfl := next_inj (exec_draw_faults ha) h
    exact absurd rfl hs

/-- R171: a pixel of the grid changes exactly when the draw flips it. -/
theorem Drawn.pixel_ne_iff (h : Drawn x y n s t) (px py : Nat) :
    pixelAt t.disp px py ≠ pixelAt s.disp px py ↔ (px, py) ∈ drawTargets x y n s := by
  rw [h.pixel]
  by_cases hmem : (px, py) ∈ drawTargets x y n s <;> simp [hmem]

end

/-- Settles O36, from what a completed draw leaves and keeps; a draw that the bounds check stops is the fault. -/
theorem drawFlipsVisibleSpritePixels : Obligations.DrawFlipsVisibleSpritePixels := by
  intro x y n s
  refine ⟨decodeWord_encode (i := .draw x y n) rfl, fun hin => ?completes, fun hn hout => ?faults⟩
  case completes =>
    have ha : accessFault s n.toNat = none := accessFault_eq_none.2 (hin.imp_left (congrArg BitVec.toNat))
    obtain ⟨t, ht, hd⟩ := exec_draw_drawn (x := x) (y := y) ha
    refine ⟨t, ht, fun px py hx hy => ?_, hd.collision.2, fun hkept => ?_, hd.regs, hd.pc, hd.frame⟩
    · rw [hd.pixel_ne_iff, mem_drawTargets]
      simp only [hx, hy, true_and]
    · refine hd.flag.resolve_right fun hvf => ?_
      obtain ⟨px, py, hx, hy, hon, hoff⟩ := hd.collision.1 hvf
      simp [hkept px py hx hy hon] at hoff
  case faults =>
    have hpos : 0 < n.toNat := Nat.pos_of_ne_zero fun h0 => hn (BitVec.eq_of_toNat_eq h0)
    exact exec_draw_faults (accessFault_eq_some.2 ⟨hpos, hout, rfl⟩)

/-! Two draws of one sprite (R173). -/

section
variable {x y n : Nibble} {s u : State}

/-- The bounds check looks at I alone (R52). -/
theorem accessFault_congr (hindex : u.index = s.index) (k : Nat) : accessFault u k = accessFault s k := by
  unfold accessFault effAddr
  rw [hindex]

/-- The pixels that a draw flips depend on the sprite bytes, I, VX and VY alone (R171). -/
theorem drawTargets_congr (hbytes : ∀ a, readByte u a = readByte s a) (hindex : u.index = s.index)
    (hx : reg u x = reg s x) (hy : reg u y = reg s y) : drawTargets x y n u = drawTargets x y n s := by
  simp only [drawTargets, bytesAtIndex, effAddr, hbytes, hindex, hx, hy]

end

/-- Settles O37: the second draw flips the pixels of the first once more, and turns off those that the first turned on. -/
theorem drawingTwiceRestoresDisplay : Obligations.DrawingTwiceRestoresDisplay := by
  intro x y n s t u hst hsafe hdisp hbytes hindex hx hy
  obtain ⟨ha, hfirst⟩ := drawn_of_safe hst hsafe
  obtain ⟨r, hur, hsecond⟩ := exec_draw_drawn (x := x) (y := y) ((accessFault_congr hindex n.toNat).trans ha)
  have hrestored : r.disp = s.disp := display_ext fun px py _ _ => by
    rw [hsecond.pixel, hdisp, hfirst.pixel, drawTargets_congr hbytes hindex hx hy, Bool.xor_assoc, Bool.xor_self,
      Bool.xor_false]
  refine ⟨r, hur, hrestored, ?_, hsecond.flag, hsecond.regs, hsecond.frame⟩
  rw [hsecond.collision, hdisp, hrestored]
  simp only [and_comm (a := pixelAt t.disp _ _ = true)]

end Sys2Proof.Machine

/-!
PROOFS. The keys and the timers (O38 to O41). EX9E and EXA1 end in `skipIf` over the level of one key; FX0A takes the head of
`freshKeys`, or repeats its own address as a jump would; the transfers of DT and ST write one register or one timer.
-/

namespace Sys2Proof.Machine

/-! The skips on a key's level: EX9E, EXA1 (R180, R181). -/

section
variable (c : Bool) (s : State)

/-- A skip on a flag's being set goes by that flag, and writes pc and KeyPrev alone. -/
theorem skipIf_set : ∃ t, skipIf c s = .next t ∧
    t.pc = (if c = true then s.pc + 4 else s.pc + 2) ∧ OnlyChanges [] s t :=
  ⟨_, rfl, skip_pc c s, onlyChanges_skip s c⟩

/-- A skip on a flag's being clear: the other way round. -/
theorem skipIf_clear : ∃ t, skipIf (!c) s = .next t ∧
    t.pc = (if c = true then s.pc + 2 else s.pc + 4) ∧ OnlyChanges [] s t := by
  refine ⟨_, rfl, (skip_pc (!c) s).trans ?_, onlyChanges_skip s _⟩
  simp only [Bool.not_eq_true', ← Bool.not_eq_true, ite_not]

end

section
variable {x : Nibble} {s : State}

theorem exec_skipKeyDown_of_lt (h : (reg s x).toNat < 16) :
    exec (.skipKeyDown x) s = skipIf s.hostKey[(reg s x).toNat] s := by
  rw [← keyAt_of_lt h]
  exact exec_skipKeyDown_completes (Nat.not_lt.2 (Nat.le_of_lt_succ h))

theorem exec_skipKeyUp_of_lt (h : (reg s x).toNat < 16) :
    exec (.skipKeyUp x) s = skipIf (!s.hostKey[(reg s x).toNat]) s := by
  rw [← keyAt_of_lt h]
  exact exec_skipKeyUp_completes (Nat.not_lt.2 (Nat.le_of_lt_succ h))

end

/-- Settles O38, by whether VX names a key: then both are skips on its level, and else both take the KeyIndex fault. -/
theorem keySkipsTestHostKey : Obligations.KeySkipsTestHostKey := by
  intro x s
  refine ⟨decodeWord_encode (i := .skipKeyDown x) rfl, decodeWord_encode (i := .skipKeyUp x) rfl, fun hkey => ?_,
    fun hbad => ⟨exec_skipKeyDown_faults hbad, exec_skipKeyUp_faults hbad⟩⟩
  rw [exec_skipKeyDown_of_lt hkey, exec_skipKeyUp_of_lt hkey]
  exact ⟨skipIf_set _ s, skipIf_clear _ s⟩

/-! The key wait: FX0A (R182). -/

section
variable {s : State}

theorem keyAt_fin (ks : Keys) (k : Fin 16) : keyAt ks k = ks[k] := keyAt_of_lt k.isLt

/-- A key is not a fresh press when it is up, or was down in the step before. -/
theorem not_fresh {k : Fin 16} (h : s.hostKey[k] = true → s.keyPrev[k] = true) :
    (keyAt s.hostKey k && !keyAt s.keyPrev k) = false := by
  rw [keyAt_fin, keyAt_fin, Bool.and_eq_false_imp]
  exact fun hdown => by rw [h hdown, Bool.not_true]

theorem freshKeys_eq_nil (h : ∀ k : Fin 16, s.hostKey[k] = true → s.keyPrev[k] = true) : freshKeys s = [] :=
  List.filter_eq_nil_iff.2 fun k hk =>
    ne_true_of_eq_false (not_fresh (h ⟨k, List.mem_range.1 hk⟩))

theorem freshKeys_eq_cons {k : Fin 16} (hdown : s.hostKey[k] = true) (hprev : s.keyPrev[k] = false)
    (hlow : ∀ j : Fin 16, j < k → s.hostKey[j] = true → s.keyPrev[j] = true) : ∃ ks, freshKeys s = k.val :: ks := by
  refine filter_range_head k.isLt ?_ fun j hj => not_fresh (k := ⟨j, hj.trans k.isLt⟩) (hlow _ hj)
  rw [keyAt_fin, keyAt_fin, hdown, hprev]
  rfl

end

/-- R182: with no fresh press FX0A is a jump to its own address. -/
theorem exec_getKeyBlocking_repeats {x : Nibble} {s : State} (h : freshKeys s = []) :
    exec (.getKeyBlocking x) s = jumpTo s.pc s := by
  rw [exec_getKeyBlocking_waits h, advance_pc, BitVec.add_sub_cancel]
  rfl

/-- Settles O39, by whether there is a fresh press; the lowest one is the head of `freshKeys`, and its number fits VX. -/
theorem keyWaitTakesLowestFreshPress : Obligations.KeyWaitTakesLowestFreshPress := by
  intro x s
  refine ⟨decodeWord_encode (i := .getKeyBlocking x) rfl, fun k hdown hprev hlow => ?takes, fun hnone => ?waits⟩
  case takes =>
    obtain ⟨ks, hfresh⟩ := freshKeys_eq_cons hdown hprev hlow
    have hbyte : k.val < 2 ^ 8 := k.isLt.trans (by decide)
    refine ⟨_, exec_getKeyBlocking_takes hfresh, ?_, setReg_frame x _ s⟩
    rw [reg_retire_setReg, BitVec.toNat_ofNat, Nat.mod_eq_of_lt hbyte]
  case waits =>
    rw [exec_getKeyBlocking_repeats (freshKeys_eq_nil hnone)]
    obtain ⟨t, ht, hpc, hframe⟩ := jumpTo_reaches (w := s.pc) rfl s
    exact ⟨t, ht, BitVec.eq_of_toNat_eq hpc, hframe⟩

/-! The timers: FX07, FX15, FX18 (R183 to R185). -/

/-- Beside pc and KeyPrev, a step whose execute phase writes DT changes DT alone. -/
theorem onlyChanges_setDelayTimer (b : Byte) (s : State) : OnlyChanges [.delay] s (retire (setDelayTimer b (advance s))) :=
  onlyChanges_retire ⟨rfl, rfl, rfl, rfl, rfl⟩ ⟨rfl, rfl, rfl, rfl, rfl, rfl⟩ fun c hc =>
    (Unchanged.refl c s).advance.setDelayTimer (List.ne_of_not_mem_cons hc)

/-- Beside pc and KeyPrev, a step whose execute phase writes ST changes ST alone. -/
theorem onlyChanges_setSoundTimer (b : Byte) (s : State) : OnlyChanges [.sound] s (retire (setSoundTimer b (advance s))) :=
  onlyChanges_retire ⟨rfl, rfl, rfl, rfl, rfl⟩ ⟨rfl, rfl, rfl, rfl, rfl, rfl⟩ fun c hc =>
    (Unchanged.refl c s).advance.setSoundTimer (List.ne_of_not_mem_cons hc)

/-- R43: the sound level is ST's being nonzero. -/
theorem soundActive_iff {s : State} : soundActive s = true ↔ s.st ≠ 0 := bne_iff_ne

/-- Settles O40: one writes VX alone, the other DT alone. -/
theorem delayTimerTransfers : Obligations.DelayTimerTransfers := fun x s =>
  ⟨decodeWord_encode (i := .getDelay x) rfl, decodeWord_encode (i := .setDelay x) rfl,
    ⟨_, rfl, reg_retire_setReg, setReg_frame x _ s⟩,
    ⟨_, rfl, rfl, rfl, onlyChanges_setDelayTimer _ s⟩⟩

/-- Settles O41: the level is read from the ST that the step leaves. -/
theorem setSoundDrivesLevel : Obligations.SetSoundDrivesLevel := fun x s =>
  ⟨decodeWord_encode (i := .setSound x) rfl, _, rfl, rfl, soundActive_iff, rfl, onlyChanges_setSoundTimer _ s⟩

end Sys2Proof.Machine

/-!
PROOFS. The exceptions (O10, O44, O50): an instruction keeps RUNSTATE or ends in its one fault; a tick just before an
instruction that uses no timer is the tick just after it; and in a faulted core the host's events change no more than HostKey and
the model's own lists, until a Reset.
-/

namespace Sys2Proof.Machine

/-! An instruction that faults (R200, R204, R205). -/

section
variable {i : Instr} {s t : State}

/-- An instruction keeps RUNSTATE, or ends in the state that R204 prescribes for its one fault. -/
theorem exec_keeps_runState_or_faults (h : exec i s = .next t) :
    t.runState = s.runState ∨ ∃ f info, faultOf i = some f ∧ t = faultedState f info (encode i) true s := by
  obtain ⟨u, hu, hk⟩ | ⟨f, info, hf, -, hu⟩ := exec_answers i s
  · exact .inl (next_inj hu h ▸ hk.faultRegs.runState)
  · exact .inr ⟨f, info, hf, next_inj hu h⟩

theorem exec_keeps_runState_of_safe (h : exec i s = .next t) (ht : Safe t) : t.runState = s.runState := by
  obtain hrun | ⟨f, info, -, rfl⟩ := exec_keeps_runState_or_faults h
  · exact hrun
  · exact absurd rfl ht

end

/-- Settles O10: RUNSTATE has changed, so the instruction took its fault. -/
theorem instructionFaultsForItsOneCause : Obligations.InstructionFaultsForItsOneCause := by
  intro i s t hs h ht
  exact (exec_keeps_runState_or_faults h).resolve_left fun hrun => hs (hrun ▸ ht)

/-! A tick and an instruction (R220, R222, R249). -/

/-- The state that a tick of a running core leaves: both timers counted down (R220). -/
def ticked (s : State) : State := { s with dt := countDown s.dt, st := countDown s.st }

theorem eventTick_of_running {s : State} (h : s.runState = .running) : eventTick s = .next (ticked s) := by
  simp only [eventTick, h, ticked]

/-- `f` on the next state of an outcome that has one. -/
def mapNext (f : State → State) : Host.Outcome State Fault Refusal → Host.Outcome State Fault Refusal
  | .next s => .next (f s)
  | .fault r => .fault r
  | .refused r => .refused r

/-! What an instruction that uses no timer reads, and its writes of ranges, beside a tick. -/

section
variable (s : State)

@[simp] theorem ticked_params : (ticked s).params = s.params := rfl
@[simp] theorem ticked_stack : (ticked s).stack = s.stack := rfl
@[simp] theorem ticked_hostKey : (ticked s).hostKey = s.hostKey := rfl
@[simp] theorem reg_ticked (x : Nibble) : reg (ticked s) x = reg s x := rfl
@[simp] theorem accessFault_ticked (n : Nat) : accessFault (ticked s) n = accessFault s n := rfl
@[simp] theorem freshKeys_ticked : freshKeys (ticked s) = freshKeys s := rfl

theorem writeBytes_ticked (a : Nat) (l : List Byte) : writeBytes a l (ticked s) = ticked (writeBytes a l s) := by
  induction l generalizing a s with
  | nil => rfl
  | cons x rest ih => exact ih (writeByte a x s) (a + 1)

theorem setRegsFrom_ticked (k : Nat) (l : List Byte) : setRegsFrom k l (ticked s) = ticked (setRegsFrom k l s) := by
  induction l generalizing k s with
  | nil => rfl
  | cons b rest ih => exact ih (setReg (BitVec.ofNat 4 k) b s) (k + 1)

theorem skipIf_ticked (c : Bool) : skipIf c (ticked s) = mapNext ticked (skipIf c s) := by
  cases c <;> rfl

/-- After a tick an instruction that uses no timer makes the same tests, so it has the same ending, completing or faulting; and
each ending leaves the timers alone. -/
theorem exec_ticked {i : Instr} (hi : ∀ x, i ≠ .getDelay x ∧ i ≠ .setDelay x ∧ i ≠ .setSound x) :
    exec i (ticked s) = mapNext ticked (exec i s) := by
  cases i with
  | getDelay x => exact absurd rfl (hi x).1
  | setDelay x => exact absurd rfl (hi x).2.1
  | setSound x => exact absurd rfl (hi x).2.2
  | skipEqImm x nn | skipNeImm x nn => exact skipIf_ticked s _
  | skipEqReg x y | skipNeReg x y => exact skipIf_ticked s _
  | skipKeyDown x =>
    simp only [exec, execSkipKeyDown, reg_ticked, ticked_hostKey, skipIf_ticked, apply_ite (mapNext ticked)]
    rfl
  | skipKeyUp x =>
    simp only [exec, execSkipKeyUp, reg_ticked, ticked_hostKey, skipIf_ticked, apply_ite (mapNext ticked)]
    rfl
  | call nnn =>
    simp only [exec, execCall, ticked_stack, ticked_params, apply_ite (mapNext ticked)]
    rfl
  | ret =>
    simp only [exec, execRet, ticked_stack]
    cases s.stack.getLast? <;> rfl
  | addToIndex x =>
    by_cases h : indexOverflow (indexSum s.index (reg s x)) = true
    · rw [exec_addToIndex_overflows h]
      exact exec_addToIndex_overflows (s := ticked s) h
    · rw [exec_addToIndex_stays h]
      exact exec_addToIndex_stays (s := ticked s) h
  | getKeyBlocking x =>
    simp only [exec, execGetKeyBlocking, freshKeys_ticked]
    cases freshKeys s <;> rfl
  | draw x y n =>
    simp only [exec, execDraw, accessFault_ticked]
    cases accessFault s n.toNat <;> rfl
  | bcd x =>
    simp only [exec, execBcd, accessFault_ticked]
    cases accessFault s 3 <;> rfl
  | storeRegs x =>
    simp only [exec, execStoreRegs, accessFault_ticked]
    cases accessFault s (rangeCount x) with
    | some a => rfl
    | none => exact congrArg complete (writeBytes_ticked (advance s) ..)
  | loadRegs x =>
    simp only [exec, execLoadRegs, accessFault_ticked]
    cases accessFault s (rangeCount x) with
    | some a => rfl
    | none => exact congrArg complete (setRegsFrom_ticked (advance s) ..)
  | _ => rfl

end

/-- Settles O44: the two orders of a tick and the instruction both end in the ticked answer, and an instruction that completes
leaves the core running. -/
theorem tickCommutesWithOtherInstructions : Obligations.TickCommutesWithOtherInstructions := by
  intro i s t hi hrun h ht
  have hexec : exec i (ticked s) = .next (ticked t) := by rw [exec_ticked s hi, h, mapNext]
  have hrunt : t.runState = .running := (exec_keeps_runState_of_safe h ht).trans hrun
  exact ⟨ticked s, ticked t, eventTick_of_running hrun, hexec, eventTick_of_running hrunt⟩

/-! The host's events in a faulted core (R206, R225, R240). -/

section
variable {s t : State}

theorem eventTick_of_not_running (h : s.runState ≠ .running) : eventTick s = .next s := by
  unfold eventTick
  cases hr : s.runState with
  | running => exact absurd hr h
  | stopped | faulted => rfl

theorem eventStop_of_not_running (h : s.runState ≠ .running) : eventStop s = .next s := by
  unfold eventStop
  cases hr : s.runState with
  | running => exact absurd hr h
  | stopped | faulted => rfl

theorem eventStart_of_not_stopped (h : s.runState ≠ .stopped) : eventStart s = .next s :=
  if_neg fun hstart => h hstart.1

theorem eventLoad_of_not_stopped (bytes : List Byte) (h : s.runState ≠ .stopped) :
    eventLoad bytes s = .refused .loadNotAdmitted :=
  if_neg fun hload => h hload.1

/-- Step, Tick, Stop and the refused Start change nothing. -/
theorem applyEvent_idle_of_faulted (hs : s.runState = .faulted) {e : Event}
    (he : e = .step ∨ e = .tick ∨ e = .stop ∨ e = .start) : applyEvent e s = .next s := by
  have hrun : s.runState ≠ .running := by simp [hs]
  have hstop : s.runState ≠ .stopped := by simp [hs]
  obtain rfl | rfl | rfl | rfl := he
  · exact eventStep_of_not_running hrun
  · exact eventTick_of_not_running hrun
  · exact eventStop_of_not_running hrun
  · exact eventStart_of_not_stopped hstop

theorem eventKey_changes_hostKey {k : Nat} {down : Bool} (h : eventKey k down s = .next t) :
    t = { s with hostKey := t.hostKey } := by
  unfold eventKey at h
  split_ifs at h
  cases h
  rfl

theorem eventPixel_changes_outputs {x y : Nat} (h : eventPixel x y s = .next t) : t = { s with outputs := t.outputs } := by
  unfold eventPixel at h
  split_ifs at h
  cases h
  rfl

/-- Any event but a Reset leaves a faulted core as it is, but for HostKey and what it has signalled. -/
theorem applyEvent_of_faulted (hs : s.runState = .faulted) {e : Event} (he : e ≠ .reset) (h : applyEvent e s = .next t) :
    t = { s with hostKey := t.hostKey, outputs := t.outputs } := by
  have idle (hi : e = .step ∨ e = .tick ∨ e = .stop ∨ e = .start) :
      t = { s with hostKey := t.hostKey, outputs := t.outputs } := by
    rw [applyEvent_idle_of_faulted hs hi] at h
    cases h
    rfl
  cases e with
  | reset => exact absurd rfl he
  | step | tick | stop | start => exact idle (by simp)
  | load bytes => exact nomatch (eventLoad_of_not_stopped bytes (by simp [hs])).symm.trans h
  | keyDown k | keyUp k => rw [eventKey_changes_hostKey h]
  | pixel x y => rw [eventPixel_changes_outputs h]

/-- A step of a faulted core, its next event listed or not, but no Reset. -/
theorem step_of_faulted (hs : s.runState = .faulted) (hin : ∀ rest, s.inputs ≠ .reset :: rest) (h : step s = .next t) :
    t = { s with hostKey := t.hostKey, inputs := t.inputs, outputs := t.outputs } := by
  cases hl : s.inputs with
  | nil =>
    rw [step_of_no_inputs hl, eventStep_of_not_running (by simp [hs])] at h
    cases h
    rfl
  | cons e rest =>
    have he : e ≠ .reset := fun hr => hin rest (hr ▸ hl)
    have hs' : ({ s with inputs := rest } : State).runState = .faulted := hs
    rw [step_of_input hl] at h
    rw [applyEvent_of_faulted hs' he h]

end

/-- Settles O50, by the kind of the next event; for a key event by the one flag that it writes. -/
theorem faultedUntilReset : Obligations.FaultedUntilReset := by
  intro s hs
  refine ⟨fun t => step_of_faulted hs, fun e rest hin => ?_⟩
  have hs' : ({ s with inputs := rest } : State).runState = .faulted := hs
  rw [step_of_input hin]
  refine ⟨applyEvent_idle_of_faulted hs', ?load, ?key, ?reset⟩
  case load =>
    rintro bytes rfl
    exact eventLoad_of_not_stopped bytes (by simp [hs])
  case key =>
    rintro k hk (rfl | rfl)
    · exact ⟨_, if_pos hk, hs, by simpa using hostKey_setHostKey hk true _⟩
    · exact ⟨_, if_pos hk, hs, by simpa using hostKey_setHostKey hk false _⟩
  case reset =>
    rintro rfl
    exact ⟨_, rfl, rfl⟩

end Sys2Proof.Machine

/-!
PROOFS. Loading and starting the core (O46, O47, O49): what Load, Start and Stop do where they are admitted and where they are
not, and the first Step after Reset, Load and Start, which runs the word at the reset vector.
-/

namespace Sys2Proof.Machine

/-! Load, Start and Stop, case by case (R243 to R245). -/

section
variable {s : State} {bytes : List Byte}

/-- R243: a ROM that fits is written at 0x200. -/
theorem eventLoad_of_fits (hs : s.runState = .stopped) (hl : s.loaded = false) (hlen : bytes.length ≤ 3584) :
    eventLoad bytes s = .next { writeBytes 0x200 bytes s with loaded := true } :=
  (if_pos ⟨hs, hl⟩).trans (if_neg (Nat.not_lt.2 hlen))

/-- R243: a ROM that is too long is not written. -/
theorem eventLoad_of_too_long (hs : s.runState = .stopped) (hl : s.loaded = false) (hlen : 3584 < bytes.length) :
    eventLoad bytes s = .next { s with outputs := s.outputs ++ [.loadError] } :=
  (if_pos ⟨hs, hl⟩).trans (if_pos hlen)

theorem eventLoad_of_loaded (hl : s.loaded = true) : eventLoad bytes s = .refused .loadNotAdmitted :=
  if_neg fun hload => Bool.false_ne_true (hload.2.symm.trans hl)

theorem eventStart_of_loaded (hs : s.runState = .stopped) (hl : s.loaded = true) :
    eventStart s = .next (setRunState .running s) := if_pos ⟨hs, hl⟩

theorem eventStart_of_not_loaded (hl : s.loaded = false) : eventStart s = .next s :=
  if_neg fun hstart => Bool.false_ne_true (hl.symm.trans hstart.2)

theorem eventStop_of_running (hrun : s.runState = .running) : eventStop s = .next (setRunState .stopped s) := by
  rw [eventStop, hrun]

end

/-- Settles O46: the three clauses are the three cases of Load, and the ROM that fits is read back from 0x200. -/
theorem loadCopiesRom : Obligations.LoadCopiesRom := by
  intro s bytes rest hin hm
  rw [step_of_input hin]
  refine ⟨fun hs hl hlen => ?fits, fun hs hl hlen => eventLoad_of_too_long hs hl hlen, fun h => ?refused⟩
  case fits =>
    have hfit : 0x200 + bytes.length ≤ memSize := by
      simp only [memSize]
      omega
    refine ⟨_, eventLoad_of_fits hs hl hlen, rfl, ?_, ?_, ?_⟩
    · exact readByte_writeBytes (s := { s with inputs := rest }) hm hfit
    · exact fun _ hb => readByte_writeBytes_outside (s := { s with inputs := rest }) hb
    · rw [writeBytes_eq]
  case refused =>
    obtain hs | hl := h
    · exact eventLoad_of_not_stopped bytes hs
    · exact eventLoad_of_loaded hl

/-- Settles O47, from Start and Stop in each RUNSTATE. -/
theorem startAndStop : Obligations.StartAndStop := by
  intro s rest
  refine ⟨fun hin => ?start, fun hin => ?stop⟩ <;> rw [step_of_input hin]
  case start =>
    refine ⟨fun hs hl => eventStart_of_loaded hs hl, fun h => ?_⟩
    obtain hs | hl := h
    · exact eventStart_of_not_stopped hs
    · exact eventStart_of_not_loaded hl
  case stop => exact ⟨fun hrun => eventStop_of_running hrun, fun hrun => eventStop_of_not_running hrun⟩

/-- R56, R91: a core fetches the instruction that the bytes at pc and after it hold. -/
theorem fetches_of_bytes {s : State} {i : Instr} {a : Nat} {hi lo : Byte} (hpc : s.pc.toNat = a) (ha : a + 1 < 4096)
    (hhi : readByte s a = hi) (hlo : readByte s (a + 1) = lo) (hd : decodeWord (hi ++ lo) = .ok i) : Fetches s i := by
  subst hpc hhi hlo
  exact ⟨ha, hd⟩

/-- Settles O49, from the three events before the Step: after the Reset the core is stopped and not loaded, so Load copies the
ROM to where pc stands, and Start finds a loaded core. -/
theorem bootExecutesAtResetVector : Obligations.BootExecutesAtResetVector := by
  intro s hi lo bytes rest i hin hlen hd
  have hreset := step_of_input hin
  obtain ⟨t, hload, hloaded, hrom, -, hframe⟩ :=
    (loadCopiesRom (resetMachine { s with inputs := _ }) (hi :: lo :: bytes) _ rfl (reset_memory_wf s.params)).1 rfl rfl hlen
  have hpc : t.pc = 0x200 := by rw [hframe]; rfl
  have hstopped : t.runState = .stopped := by rw [hframe]; rfl
  have hstart := ((startAndStop t (.step :: rest)).1 (by rw [hframe])).1 hstopped hloaded
  have hrun := (run_succ 2 hreset).trans ((run_succ 1 hload).trans (run_succ 0 hstart))
  have hfetches : Fetches { t with runState := .running, inputs := .step :: rest } i :=
    fetches_of_bytes (congrArg BitVec.toNat hpc) (by decide) (hrom 0 (by simp)) (hrom 1 (by simp)) hd
  exact ⟨_, hrun, hpc, rfl, hfetches, (stepRunsDecodedInstruction _ i rfl hfetches).2 rest rfl⟩

end Sys2Proof.Machine
